-- ==== Sys2Proof/Word.lean ====
section
/-! DEFINITION. The words, fields and names of the command interface (spec 00_scope.md R6, R12, R13; 30_encoding.md R62), and the page table as plain data (10_state.md R22, R23). -/

namespace Sys2Proof

/-- A word of the request, response or notification channel (30_encoding.md R60). -/
abbrev Word := BitVec 32

/-- `u8` of R13. -/
abbrev Byte := BitVec 8

/-- `u16` of R13. -/
abbrev Half := BitVec 16

/-- `Addr` of R13: a 16-bit address. -/
abbrev Addr := BitVec 16

/-- `Addr17` of R13, used for `address + 1` (41_access.md R93). -/
abbrev Addr17 := BitVec 17

/-- A page index operand, 0..63 (R13, R73). -/
abbrev Page := BitVec 6

/-- A block id as commands and map entries carry it (R62). -/
abbrev BlockId := BitVec 16

/-- A position or length operand of COPY (R62, R70). -/
abbrev Position := BitVec 32

/-- The index of a paging register, 0..3 (10_state.md R27). -/
abbrev RegIndex := BitVec 2

/-- `Dir` of R13: the read map or the write map. -/
inductive Dir where
  | r
  | w
  deriving DecidableEq, Repr

/-- MODE of 00_scope.md R7. -/
inductive Mode where
  | debug
  | release
  deriving DecidableEq, Repr

/-- The mnemonics a fault record can name as `op` (30_encoding.md R61, 60_exceptions.md R142). -/
inductive Mnemonic where
  | trans
  | rb
  | wb
  | rw
  | bind
  | resolve
  | copy
  | reset
  | illegal
  deriving DecidableEq, Repr

end Sys2Proof

namespace Sys2Proof.Machine

/-- `Entry` of 00_scope.md R13: Absent, or Bound(b). -/
inductive Entry where
  | absent
  | bound (b : BlockId)
  deriving DecidableEq, Repr

/-- One map of the page table, an entry per page (10_state.md R22, R23). -/
abbrev PageMap := Vector Entry 64

/-- A map with every entry Absent. -/
def PageMap.allAbsent : PageMap := Vector.replicate 64 .absent

/-- The page table as the mapper is shown it (00_scope.md R11). -/
structure PageTable where
  readMap : PageMap
  writeMap : PageMap
  deriving DecidableEq, Repr

/-- The mapper's own state, of a type the mapper chooses (10_state.md R32); the states a run passes through are numbered in it (log entry 6). -/
abbrev MapperState := Nat

end Sys2Proof.Machine
end

