-- ==== Sys2Proof/Config.lean ====
section
/-! DEFINITION. The fixed parameters of spec 00_scope.md R6 and the free values the spec leaves unconstrained. The launch parameters of R7 are fields of State (Machine/State.lean), so that a statement over every state is one over every launch. -/

namespace Sys2Proof.Config

/-- PAGE_SHIFT (R6). -/
def pageShift : Nat := 10

/-- PAGE_SIZE (R6). -/
def pageSize : Nat := 1024

/-- OFFSET_MASK (R6). -/
def offsetMask : Addr17 := 0x3FF#17

/-- TRAP_BASE (R6). -/
def trapBase : Addr := 0xFFFC#16

/-- The most blocks an arena may have (R7). -/
def maxBlocks : Nat := 65536

/-- `draw_8()` of R14: the byte of the n-th draw. A FREE VALUE (log entry 8): nothing constrains it. -/
opaque freeByte : Nat → Byte

/-- `draw_16()` of R14: the half word of the n-th draw. A FREE VALUE (log entry 8). -/
opaque freeHalf : Nat → Half

/-- Which member of a set of mapper answers the n-th draw takes (R11). A FREE VALUE (log entry 7). -/
opaque freeChoice : Nat → Nat

/-- The new MapperState of the `member`-th member of the set that the `relation`-th MAPPER gives for a mapper state, a page table, a register index and a value (R11). A FREE VALUE (log entry 6): the mapper is any relation. -/
opaque mapperNext (relation : Nat) (state : Machine.MapperState) (table : Machine.PageTable) (k : RegIndex) (v : Byte)
    (member : Nat) : Machine.MapperState

/-- The words of the commands of that member (R11). A FREE VALUE (log entry 6). -/
opaque mapperWords (relation : Nat) (state : Machine.MapperState) (table : Machine.PageTable) (k : RegIndex) (v : Byte)
    (member : Nat) : List Word

end Sys2Proof.Config
end

