-- ==== Sys2Proof/Syntax.lean ====
section
/-! DEFINITION. The commands, one constructor per row of spec/opcode_table.json, in the table's order. -/

namespace Sys2Proof

/-- One command, or the notification, with its operands. -/
inductive Instr where
  /-- `TRANS addr` (30_encoding.md R64, 40_translation.md R80). -/
  | trans (addr : Addr)
  /-- `RB addr` (R65, 41_access.md R90). -/
  | rb (addr : Addr)
  /-- `WB addr, data` (R66, 41_access.md R92). -/
  | wb (addr : Addr) (data : Byte)
  /-- `RW addr` (R67, 41_access.md R95). -/
  | rw (addr : Addr)
  /-- `BIND dir, page, blk` (R68, 40_translation.md R82). -/
  | bind (dir : Dir) (page : Page) (blk : BlockId)
  /-- `RESOLVE dir, page` (R69, 40_translation.md R81). -/
  | resolve (dir : Dir) (page : Page)
  /-- `COPY srcBlk, srcPos, destBlk, destPos, length` (R70, 43_bulk_copy.md R120). -/
  | copy (srcBlk : BlockId) (srcPos : Position) (destBlk : BlockId) (destPos length : Position)
  /-- `RESET` (R71, 44_session.md R130). -/
  | reset
  /-- A request word that spells no command (R74; log entry 15). -/
  | illegal (word : Word)
  /-- The notification `onWrite(k, v)` of the notification channel (R72, 42_trap.md R110). No request word decodes to it. -/
  | notify (k : RegIndex) (v : Byte)
  deriving DecidableEq, Repr

end Sys2Proof
end

