-- ==== Sys2Proof/WellFormed.lean ====
section
/-! DEFINITION. Which terms of Instr are commands of the interface. Every operand type is exactly as wide as its field (30_encoding.md R73), so the only terms that need a check are the illegal word's and, on the request channel, the notification's. -/

namespace Sys2Proof

/-- Every operand fits its field; an illegal word has its opcode in 0x8..0xF (30_encoding.md R74). -/
def Instr.wf : Instr → Bool
  | .trans _ => true
  | .rb _ => true
  | .wb _ _ => true
  | .rw _ => true
  | .bind _ _ _ => true
  | .resolve _ _ => true
  | .copy _ _ _ _ _ => true
  | .reset => true
  | .illegal word => word.getLsbD 31
  | .notify _ _ => true

/-- A well-formed command of the REQUEST channel: the notification belongs to the notification channel (30_encoding.md R60, R72). -/
def Instr.wfRequest : Instr → Bool
  | .notify _ _ => false
  | .trans addr => Instr.wf (.trans addr)
  | .rb addr => Instr.wf (.rb addr)
  | .wb addr data => Instr.wf (.wb addr data)
  | .rw addr => Instr.wf (.rw addr)
  | .bind dir page blk => Instr.wf (.bind dir page blk)
  | .resolve dir page => Instr.wf (.resolve dir page)
  | .copy sb sp db dp len => Instr.wf (.copy sb sp db dp len)
  | .reset => Instr.wf .reset
  | .illegal word => Instr.wf (.illegal word)

end Sys2Proof
end

