-- ==== Sys2Proof/Decode.lean ====
section
/-! DEFINITION. The decoder of request streams, the decoder of notification words, and the encoder (spec 30_encoding.md). -/

namespace Sys2Proof

/-- One whole command of a request stream, as the decoder reads it. -/
inductive Command where
  /-- A command of the table. -/
  | instr (i : Instr)
  /-- Opcode `op` (never illegal) with a reserved bit set; `word` is the command's first word (R75; log entry 15). -/
  | reserved (op : Mnemonic) (word : Word)
  deriving DecidableEq, Repr

/-- What stands at the head of a request stream. -/
inductive Decoded where
  /-- No word. -/
  | empty
  /-- A COPY whose operand words are not all there (R76). -/
  | truncatedCopy
  /-- One whole command, and the words after it. -/
  | command (c : Command) (rest : List Word)
  deriving DecidableEq, Repr

/-- The opcode field, bits 31:28 (R61). -/
def opcode (w : Word) : BitVec 4 := w.extractLsb' 28 4

/-- The opcode table of R61; 0x8..0xF spell no command (R74). -/
def Mnemonic.ofOpcode (op : BitVec 4) : Mnemonic :=
  match op.toNat with
  | 0 => .trans
  | 1 => .rb
  | 2 => .wb
  | 3 => .rw
  | 4 => .bind
  | 5 => .resolve
  | 6 => .copy
  | 7 => .reset
  | _ => .illegal

/-- The mask of each layout (R64-R71); for the illegal space that of opcode_table.json. -/
def Mnemonic.mask : Mnemonic → Word
  | .trans => 0xFFFF0000#32
  | .rb => 0xFFFF0000#32
  | .wb => 0xFF000000#32
  | .rw => 0xFFFF0000#32
  | .bind => 0xFEC00000#32
  | .resolve => 0xFEC0FFFF#32
  | .copy => 0xFFFF0000#32
  | .reset => 0xFFFFFFFF#32
  | .illegal => 0x80000000#32

/-- The match value of each layout (R64-R71). -/
def Mnemonic.pattern : Mnemonic → Word
  | .trans => 0x00000000#32
  | .rb => 0x10000000#32
  | .wb => 0x20000000#32
  | .rw => 0x30000000#32
  | .bind => 0x40000000#32
  | .resolve => 0x50000000#32
  | .copy => 0x60000000#32
  | .reset => 0x70000000#32
  | .illegal => 0x80000000#32

/-- `word & mask = match`: no reserved bit of a first word is set (R75). -/
def reservedClear (op : Mnemonic) (w : Word) : Bool := w &&& op.mask == op.pattern

/-- `addr = w[15:0]` (R73). -/
def addrField (w : Word) : Addr := w.extractLsb' 0 16

/-- `data = w[23:16]` (R73). -/
def dataField (w : Word) : Byte := w.extractLsb' 16 8

/-- `dir = w[24]`: 0 is the read map, 1 the write map (R62, R73). -/
def dirField (w : Word) : Dir := if w.getLsbD 24 then .w else .r

/-- `page = w[21:16]` (R73). -/
def pageField (w : Word) : Page := w.extractLsb' 16 6

/-- `blk = w[15:0]` (R73). -/
def blkField (w : Word) : BlockId := w.extractLsb' 0 16

/-- Bits 31:16 of COPY's word 1 are reserved (R70). -/
def copyWordClear (w : Word) : Bool := w.extractLsb' 16 16 == 0#16

/-- A one-word command, read from its word (R61-R69, R71, R74, R75). A COPY's first word alone is never given to it by `decode`. -/
def decodeWord (op : Mnemonic) (w : Word) : Command :=
  if reservedClear op w then
    match op with
    | .trans => .instr (.trans (addrField w))
    | .rb => .instr (.rb (addrField w))
    | .wb => .instr (.wb (addrField w) (dataField w))
    | .rw => .instr (.rw (addrField w))
    | .bind => .instr (.bind (dirField w) (pageField w) (blkField w))
    | .resolve => .instr (.resolve (dirField w) (pageField w))
    | .copy => .reserved .copy w
    | .reset => .instr .reset
    | .illegal => .instr (.illegal w)
  else .reserved op w

/-- A COPY, read from its five words (R70, R75). -/
def decodeCopy (w0 w1 w2 w3 w4 : Word) : Command :=
  if reservedClear .copy w0 && copyWordClear w1 then
    .instr (.copy (blkField w0) w2 (blkField w1) w3 w4)
  else .reserved .copy w0

/-- The command at the head of a request stream (R76, R77). Total on any words. -/
def decode (ws : List Word) : Decoded :=
  match ws with
  | [] => .empty
  | w0 :: rest =>
    match Mnemonic.ofOpcode (opcode w0) with
    | .copy =>
      match rest with
      | w1 :: w2 :: w3 :: w4 :: rest' => .command (decodeCopy w0 w1 w2 w3 w4) rest'
      | _ => .truncatedCopy
    | op => .command (decodeWord op w0) rest

/-- How many operand words follow a first word (R76). -/
def operandWords (w : Word) : Nat := if opcode w = 6#4 then 4 else 0

/-- No COPY of the stream lacks an operand word (R76, R180); `need` operand words are still due. -/
def wholeFrom (need : Nat) (ws : List Word) : Bool :=
  match need, ws with
  | 0, [] => true
  | _ + 1, [] => false
  | 0, w :: rest => wholeFrom (operandWords w) rest
  | n + 1, _ :: rest => wholeFrom n rest

/-- The stream is a sequence of whole commands: the decoder does not refuse it (R76). -/
def wholeStream (ws : List Word) : Bool := wholeFrom 0 ws

/-- The commands of a stream, at most `fuel` of them. -/
def decodeUpTo (fuel : Nat) (ws : List Word) : Option (List Command) :=
  match fuel with
  | 0 => if ws = [] then some [] else none
  | n + 1 =>
    match decode ws with
    | .empty => some []
    | .truncatedCopy => none
    | .command c rest => (decodeUpTo n rest).map (c :: ·)

/-- All commands of a stream in order; none where the decoder refuses it (R76). A command takes at least one word, so the number of words is fuel enough. -/
def decodeAll (ws : List Word) : Option (List Command) := decodeUpTo ws.length ws

/-- The notification a word of the notification channel carries: bits 31:10 are 0 (R72). -/
def decodeNotification (w : Word) : Option Instr :=
  if w.extractLsb' 10 22 = 0#22 then some (.notify (w.extractLsb' 8 2) (w.extractLsb' 0 8)) else none

/-- The direction bit (R62). -/
def Dir.bit : Dir → BitVec 1
  | .r => 0#1
  | .w => 1#1

/-- The notification word of R72: `[9:8] k`, `[7:0] v`, zero above. -/
def notificationWord (k : RegIndex) (v : Byte) : Word := 0#22 ++ k ++ v

/-- The words of a command, from the layouts of R64-R72. -/
def encode : Instr → List Word
  | .trans addr => [0x0000#16 ++ addr]
  | .rb addr => [0x1000#16 ++ addr]
  | .wb addr data => [0x20#8 ++ data ++ addr]
  | .rw addr => [0x3000#16 ++ addr]
  | .bind dir page blk => [0b0100000#7 ++ dir.bit ++ 0#2 ++ page ++ blk]
  | .resolve dir page => [0b0101000#7 ++ dir.bit ++ 0#2 ++ page ++ 0#16]
  | .copy srcBlk srcPos destBlk destPos length =>
    [0x6000#16 ++ srcBlk, 0#16 ++ destBlk, srcPos, destPos, length]
  | .reset => [0x70000000#32]
  | .illegal word => [word]
  | .notify k v => [notificationWord k v]

/-- The first word of a command, which a fault record names (60_exceptions.md R142). -/
def firstWord (i : Instr) : Word := (encode i).headD 0#32

/-- The words of an instruction given as one number, bit 0 the least significant bit of the first word; bits from `nbits` on are 0. -/
def tableWords (nbits w : Nat) : List Word :=
  let bits := w % 2 ^ nbits
  let word (k : Nat) : Word := BitVec.ofNat 32 (bits / 2 ^ (32 * k))
  if opcode (word 0) = 6#4 then [word 0, word 1, word 2, word 3, word 4] else [word 0]

/-- What the request decoder reads from an instruction given as one number; none where it refuses it. -/
def decodeTableWord (nbits w : Nat) : Option Instr :=
  match decode (tableWords nbits w) with
  | .command (.instr i) _ => some i
  | .command (.reserved _ _) _ => none
  | .empty => none
  | .truncatedCopy => none

end Sys2Proof
end

