-- ==== Sys2Proof/Machine/State.lean ====
section
/-! DEFINITION. The state of the block as plain data (spec 10_state.md R36), the session start, and the reasons a step can stop. -/

namespace Sys2Proof.Machine

/-- The bytes of one block: (index, byte) pairs in the one canonical form of `Memory.wf`. -/
abbrev Memory := List Host.Cell

/-- What an unlisted index of a block holds. A matter of representation (log entry 9): every contents can be listed. -/
def unlistedByte : Byte := 0#8

/-- A MemoryBlock: LEN(b) and its bytes (10_state.md R25). -/
structure Block where
  len : Nat
  mem : Memory
  deriving DecidableEq, Repr

/-- One tuple of MAPPER (00_scope.md R11), written out: in mapper state `state`, notified `(k, v)` while the page table is `table` (`none`: whatever it is), the mapper may go to `next` and answer with `answer`, the words it issues on the request channel (log entry 21). -/
structure MapperRow where
  state : MapperState
  k : RegIndex
  v : Byte
  table : Option PageTable
  next : MapperState
  answer : List Word
  deriving DecidableEq, Repr

/-- What MAPPER gives for a notification that no written-out tuple speaks of. -/
inductive Unlisted where
  /-- The set of the `i`-th relation of Config, which nothing constrains: any relation of 00_scope.md R11 (log entry 6). -/
  | relation (i : Nat)
  /-- The one member of a mapper that answers nothing: no command, mapperState as it was. -/
  | nothing
  deriving DecidableEq, Repr

/-- MAPPER (00_scope.md R7, R11): a relation of Config, any relation at all, of which the tuples for some notifications may be written out. -/
structure Mapper where
  rows : List MapperRow
  unlisted : Unlisted
  deriving DecidableEq, Repr

/-- The fault kinds of 60_exceptions.md R140. -/
inductive FaultKind where
  | unmappedPage
  | offsetOutOfRange
  | illegalCommand
  | reservedFieldNonzero
  | invalidBlock
  | reentrantAccess
  deriving DecidableEq, Repr

/-- COPY's five operands, as a fault record holds them (60_exceptions.md R142). -/
structure CopyOperands where
  srcBlk : BlockId
  srcPos : Position
  destBlk : BlockId
  destPos : Position
  length : Position
  deriving DecidableEq, Repr

/-- A fault record (60_exceptions.md R142): `code`, `op`, `word`, and what the kind has of the rest (DEDUCED, log entry 13). -/
structure FaultRecord where
  code : FaultKind
  op : Mnemonic
  word : Word
  addr : Option Addr := none
  page : Option Nat := none
  dir : Option Dir := none
  offset : Option Nat := none
  block : Option BlockId := none
  length : Option Nat := none
  need : Option Nat := none
  copy : Option CopyOperands := none
  deriving DecidableEq, Repr

/-- Who gets a response: the agent that issued the request, or the mapper for a command of its answer (42_trap.md R111). -/
inductive Recipient where
  | issuer
  | mapper
  deriving DecidableEq, Repr

/-- A word of the response channel (30_encoding.md R63) and who gets it. -/
structure Response where
  recipient : Recipient
  word : Word
  deriving DecidableEq, Repr

/-- A paging notification `(k, v)` (10_state.md R31). -/
structure Notification where
  k : RegIndex
  v : Byte
  deriving DecidableEq, Repr

/-- The whole state. -/
structure State where
  /-- MODE, fixed for the session (10_state.md R28). -/
  mode : Mode
  /-- MAPPER, fixed for the session (00_scope.md R7, R11; log entry 6). -/
  mapper : Mapper
  /-- The arena: block b is the b-th of the list, NUM_BLOCKS its length (10_state.md R25). -/
  blocks : List Block
  /-- 10_state.md R22. -/
  readMap : PageMap
  /-- 10_state.md R23. -/
  writeMap : PageMap
  /-- The fault latch (10_state.md R29). -/
  fault : Option FaultRecord
  /-- True while the mapper's answer runs (10_state.md R30). -/
  inTrap : Bool
  /-- Every notification issued, oldest first (10_state.md R31). -/
  notifyLog : List Notification
  /-- 10_state.md R32. -/
  mapperState : MapperState
  /-- The request channel: words issued and not yet executed, oldest first (30_encoding.md R60). -/
  requests : List Word
  /-- The response channel, oldest first (30_encoding.md R60, R63). -/
  responses : List Response
  /-- THE MODEL'S OWN: how many free values have been taken (log entry 8). -/
  draws : Nat
  deriving DecidableEq, Repr

/-- The launch parameters of 00_scope.md R7 that the model holds (STRATEGY is unobservable, R9); INIT_CONTENTS and LEN are the blocks'. -/
structure Launch where
  mode : Mode
  blocks : List Block
  mapper : Mapper
  mapperState : MapperState
  deriving DecidableEq, Repr

/-- The state at session start (10_state.md R36, 70_reset_and_hazards.md R170), for any launch. -/
def State.launch (l : Launch) : State where
  mode := l.mode
  mapper := l.mapper
  blocks := l.blocks
  readMap := PageMap.allAbsent
  writeMap := PageMap.allAbsent
  fault := none
  inTrap := false
  notifyLog := []
  mapperState := l.mapperState
  requests := []
  responses := []
  draws := 0

/-- The launch `State.reset` stands for: Debug (log entry 3), one block of 1024 bytes 0x00 (log entry 4), a mapper of which nothing is known, in state 0 (log entry 5). DESIGN CHOICE: the spec leaves every launch parameter open. -/
def Launch.default : Launch where
  mode := .debug
  blocks := [{ len := 1024, mem := [] }]
  mapper := { rows := [], unlisted := .relation 0 }
  mapperState := 0

/-- The machine right after session start, for the launch the log names. -/
def State.reset : State := State.launch Launch.default

/-- Why the model stops with a fault. The block's own faults (60_exceptions.md R140) are no stop of the model: they latch in `State.fault`. -/
inductive Fault where
  /-- RB, WB and RW raise it where the map entry binds a block id outside the arena. Safe: `BlockId` of 00_scope.md R13 has no such id, and no run reaches such a state (`State.wf`, log entry 10). -/
  | noSuchBlock (b : BlockId)
  deriving DecidableEq, Repr

/-- Why the model gives a step no meaning. -/
inductive Refusal where
  /-- An instruction without a meaning yet; raised by no arm of this model. Safe: nothing can be proved of it. -/
  | notModelled (mnemonic : String)
  /-- `step`, and WB and NOTIFY for the mapper's answer, refuse a stream whose last COPY lacks operand words (30_encoding.md R76, 70_reset_and_hazards.md R180; log entry 12). Safe: the spec gives such a stream no run. -/
  | truncatedCopy
  deriving DecidableEq, Repr

end Sys2Proof.Machine
end

