-- ==== Sys2Proof/Machine/Flags.lean ====
section
/-! DEFINITION. The block has no condition codes (spec 10_state.md R29). Its status bits are the fault latch and inTrap. -/

namespace Sys2Proof.Machine

/-- A fault is latched (60_exceptions.md R143). -/
def State.latched (s : State) : Bool := s.fault.isSome

/-- The codes of 60_exceptions.md R140. -/
def FaultKind.number : FaultKind → Nat
  | .unmappedPage => 1
  | .offsetOutOfRange => 2
  | .illegalCommand => 3
  | .reservedFieldNonzero => 4
  | .invalidBlock => 5
  | .reentrantAccess => 6

/-- Debug mode (40_translation.md R84). -/
def State.isDebug (s : State) : Bool := s.mode == .debug

/-- A latched fault blocks a command outright: nothing of it happens (60_exceptions.md R143, R144 check 1; log entry 11). -/
def State.unlessLatched (s : State) (body : Host.Outcome State Fault Refusal) : Host.Outcome State Fault Refusal :=
  if s.latched then .next s else body

/-- inTrap becomes true: entry into a paging notification saves nothing else (60_exceptions.md R148). -/
def State.enterTrap (s : State) : State := { s with inTrap := true }

/-- Return from a paging notification (60_exceptions.md R149); a fault inside the answer has no return (42_trap.md R112). -/
def State.leaveTrap (s : State) : State := if s.latched then s else { s with inTrap := false }

end Sys2Proof.Machine
end

