-- ==== Sys2Proof/Machine/Operands.lean ====
section
/-! DEFINITION. Operand forms: splitting an address, the map a direction names, the response words, and the well-formedness of the state's own data. -/

namespace Sys2Proof.Machine

/-- `address >> 10` (40_translation.md R80, 41_access.md R93): 0..63, or 64 for 0x10000. -/
def pageOf (a : Addr17) : Nat := (a >>> Config.pageShift).toNat

/-- `address & 0x3FF` (40_translation.md R80, 41_access.md R93). -/
def offsetOf (a : Addr17) : Nat := (a &&& Config.offsetMask).toNat

/-- A 16-bit address as an `Addr17`. -/
def widen (a : Addr) : Addr17 := a.setWidth 17

/-- `address + 1` in 17 bits, with no wrap (41_access.md R93). -/
def highByteAddr (a : Addr) : Addr17 := widen a + 1#17

/-- `Map(d)` (00_scope.md R14). -/
def State.mapOf (s : State) (d : Dir) : PageMap :=
  match d with
  | .r => s.readMap
  | .w => s.writeMap

/-- `Map(d)[p]`; page 64 has no entry and counts as Absent (41_access.md R93, 40_translation.md R84). -/
def State.entry (s : State) (d : Dir) (p : Nat) : Entry := (s.mapOf d)[p]?.getD .absent

/-- The page table as it stands (00_scope.md R11). -/
def State.pageTable (s : State) : PageTable := { readMap := s.readMap, writeMap := s.writeMap }

/-- A block id names a block of the arena (10_state.md R25). -/
def State.hasBlock (s : State) (b : BlockId) : Bool := decide (b.toNat < s.blocks.length)

/-- TRANS's response: `[15:10]` page, `[9:0]` offset (30_encoding.md R63). -/
def transResponse (page offset : Nat) : Word := BitVec.ofNat 32 (page <<< Config.pageShift ||| offset)

/-- RESOLVE's response for Bound(b): `1 << 16 | b` (30_encoding.md R63, 40_translation.md R81). -/
def boundResponse (b : BlockId) : Word := 1#32 <<< 16 ||| b.setWidth 32

/-- `low | high << 8`: words are little-endian (20_memory.md R40). -/
def littleEndian (low high : Byte) : Half := low.setWidth 16 ||| high.setWidth 16 <<< 8

/-- The addresses of the paging registers, 0xFFFC-0xFFFF (10_state.md R27). -/
def isPagingAddr (a : Addr) : Bool := Config.trapBase.ule a

/-- `k = address & 3` (10_state.md R27, 42_trap.md R110). -/
def pagingIndex (a : Addr) : RegIndex := (a &&& 3#16).setWidth 2

/-- The words of the notification channel, a view of notifyLog (30_encoding.md R72; log entry 20). -/
def State.notificationWords (s : State) : List Word := s.notifyLog.map fun n => notificationWord n.k n.v

/-- Indices strictly rising from `lo` on, below `len`, and no entry equal to what an unlisted index holds. -/
def Memory.wfFrom (len lo : Nat) (m : Memory) : Bool :=
  match m with
  | [] => true
  | (i, v) :: rest => decide (lo ≤ i) && decide (i < len) && decide (v ≠ unlistedByte) && Memory.wfFrom len (i + 1) rest

/-- The canonical form of a memory of `len` bytes. -/
def Memory.wf (len : Nat) (m : Memory) : Bool := Memory.wfFrom len 0 m

/-- A block's bytes are in canonical form and lie below its length. -/
def Block.wf (b : Block) : Bool := Memory.wf b.len b.mem

/-- An entry is Absent or names one of `n` blocks (00_scope.md R13). -/
def Entry.wf (n : Nat) (e : Entry) : Bool :=
  match e with
  | .absent => true
  | .bound b => decide (b.toNat < n)

/-- Every entry of a map is legal (00_scope.md R13, 10_state.md R22, R23). -/
def PageMap.wf (n : Nat) (m : PageMap) : Bool := m.toList.all (Entry.wf n)

/-- NUM_BLOCKS is in 1..65536 and every block is well-formed (00_scope.md R7, 10_state.md R25). -/
def arenaWf (blocks : List Block) : Bool :=
  decide (1 ≤ blocks.length) && decide (blocks.length ≤ Config.maxBlocks) && blocks.all Block.wf

/-- Every written-out answer is a finite list of whole commands (00_scope.md R11, 30_encoding.md R76). -/
def mapperWf (m : Mapper) : Bool := m.rows.all fun r => wholeStream r.answer

/-- A launch of 00_scope.md R7. -/
def Launch.wf (l : Launch) : Bool := arenaWf l.blocks && mapperWf l.mapper

/-- What every state of a run between two commands keeps (10_state.md R22-R25, R30, 42_trap.md R112; log entry 24). -/
def State.wf (s : State) : Bool :=
  arenaWf s.blocks && PageMap.wf s.blocks.length s.readMap && PageMap.wf s.blocks.length s.writeMap &&
    mapperWf s.mapper && (!s.inTrap || s.latched)

end Sys2Proof.Machine
end

