-- ==== Sys2Proof/Machine/Ops.lean ====
section
/-! DEFINITION. The named operations over blocks, maps, channels and the fault latch (spec 00_scope.md R14), taking a fault (60_exceptions.md R141), and lookup-and-check (40_translation.md R84). -/

namespace Sys2Proof.Machine

/-- The byte at an index. -/
def Memory.read (m : Memory) (i : Nat) : Byte :=
  match m with
  | [] => unlistedByte
  | (j, v) :: rest => if j = i then v else Memory.read rest i

/-- Store a byte at an index, keeping the canonical form. -/
def Memory.write (m : Memory) (i : Nat) (v : Byte) : Memory :=
  match m with
  | [] => if v = unlistedByte then [] else [(i, v)]
  | (j, x) :: rest =>
    if i < j then (if v = unlistedByte then (j, x) :: rest else (i, v) :: (j, x) :: rest)
    else if i = j then (if v = unlistedByte then rest else (i, v) :: rest)
    else (j, x) :: Memory.write rest i v

/-- A block with one byte stored; its length is fixed (10_state.md R25). -/
def Block.write (b : Block) (i : Nat) (v : Byte) : Block := { b with mem := Memory.write b.mem i v }

/-- LEN(b), where block b exists. -/
def State.lenOf (s : State) (b : BlockId) : Option Nat := s.blocks[b.toNat]?.map Block.len

/-- The byte of block b at index i: none where the block does not exist or i is not below LEN(b), where `BlkGet` is not defined (00_scope.md R14). -/
def State.readByte (s : State) (b : BlockId) (i : Nat) : Option Byte :=
  match s.blocks[b.toNat]? with
  | none => none
  | some blk => if i < blk.len then some (Memory.read blk.mem i) else none

/-- `BlkGet(b, i)`; used only where i < LEN(b) (00_scope.md R14). -/
def State.blkGet (s : State) (b : BlockId) (i : Nat) : Byte := (s.readByte b i).getD unlistedByte

/-- `BlkSet(b, i, v)`: changes no other byte of any block (00_scope.md R14, 10_state.md R26). -/
def State.blkSet (s : State) (b : BlockId) (i : Nat) (v : Byte) : State :=
  { s with blocks := s.blocks.modify b.toNat fun blk => blk.write i v }

/-- `Map(d)[p] <- e` (00_scope.md R14). -/
def State.setEntry (s : State) (d : Dir) (p : Page) (e : Entry) : State :=
  match d with
  | .r => { s with readMap := s.readMap.set p.toNat e p.isLt }
  | .w => { s with writeMap := s.writeMap.set p.toNat e p.isLt }

/-- Who gets the response of the command being executed (42_trap.md R111, 70_reset_and_hazards.md R174). -/
def State.recipient (s : State) : Recipient := if s.inTrap then .mapper else .issuer

/-- `respond(v)` (00_scope.md R14, 30_encoding.md R63). -/
def State.respond (s : State) (w : Word) : State :=
  { s with responses := s.responses ++ [{ recipient := s.recipient, word := w }] }

/-- Respond with `draw_8()` (00_scope.md R14, 41_access.md R90): a free value. -/
def State.respondFreeByte (s : State) : State :=
  { s.respond ((Config.freeByte s.draws).setWidth 32) with draws := s.draws + 1 }

/-- Respond with `draw_16()` (00_scope.md R14, 41_access.md R97): a free value. -/
def State.respondFreeHalf (s : State) : State :=
  { s.respond ((Config.freeHalf s.draws).setWidth 32) with draws := s.draws + 1 }

/-- `raise E(info)` (60_exceptions.md R141): latch the record and stop. The one way a fault of the block is taken; there is no handler and no return (60_exceptions.md R148). -/
def State.raise (s : State) (r : FaultRecord) : State := { s with fault := some r }

/-- The record of a ReentrantAccess (42_trap.md R113; DEDUCED, log entry 13). -/
def reentrantRecord (op : Mnemonic) (word : Word) : FaultRecord :=
  { code := .reentrantAccess, op := op, word := word }

/-- The reentrancy check of 42_trap.md R113, check 3 of 60_exceptions.md R144. -/
def State.unlessInTrap (s : State) (op : Mnemonic) (word : Word) (body : Host.Outcome State Fault Refusal) :
    Host.Outcome State Fault Refusal :=
  if s.inTrap then .next (s.raise (reentrantRecord op word)) else body

/-- What lookup-and-check finds. -/
inductive Checked where
  /-- `Ok(b)`. -/
  | ok (b : BlockId)
  /-- `Bad`: Release mode. -/
  | bad
  /-- A fault to raise: Debug mode. -/
  | raised (r : FaultRecord)
  /-- The entry binds a block id outside the arena (log entry 10). -/
  | noBlock (b : BlockId)
  deriving DecidableEq, Repr

/-- `Check(op, addr, dir, p, off, need)` of 40_translation.md R84: presence first, then length. `word` is the command's first word, for the record. -/
def State.check (s : State) (op : Mnemonic) (word : Word) (addr : Addr) (dir : Dir) (p off need : Nat) : Checked :=
  match s.entry dir p with
  | .absent =>
    if s.isDebug then
      .raised
        { code := .unmappedPage, op := op, word := word, addr := some addr, page := some p, dir := some dir,
          offset := some off }
    else .bad
  | .bound b =>
    match s.lenOf b with
    | none => .noBlock b
    | some len =>
      if len < off + need then
        if s.isDebug then
          .raised
            { code := .offsetOutOfRange, op := op, word := word, addr := some addr, page := some p, dir := some dir,
              offset := some off, block := some b, length := some len, need := some need }
        else .bad
      else .ok b

end Sys2Proof.Machine
end

