-- ==== Sys2Proof/Machine/Copy.lean ====
section
/-! DEFINITION. COPY (spec 43_bulk_copy.md R120-R124). -/

namespace Sys2Proof.Machine

/-- One step of the loop, for index i (R120): the source byte as it stands; out of range a free value for the source, no effect for the destination (Release only). -/
def copyStep (src : BlockId) (srcPos : Nat) (dest : BlockId) (destPos i : Nat) (s : State) : State :=
  match s.readByte dest (destPos + i) with
  | none => s
  | some _ =>
    match s.readByte src (srcPos + i) with
    | some x => s.blkSet dest (destPos + i) x
    | none => { s.blkSet dest (destPos + i) (Config.freeByte s.draws) with draws := s.draws + 1 }

/-- The loop, for i from n - 1 down to 0 (R120). -/
def copyLoop (src : BlockId) (srcPos : Nat) (dest : BlockId) (destPos : Nat) (n : Nat) (s : State) : State :=
  match n with
  | 0 => s
  | i + 1 => copyLoop src srcPos dest destPos i (copyStep src srcPos dest destPos i s)

/-- The range of `length` bytes from `pos` fits block b (R120); positions are unbounded naturals. -/
def State.rangeFits (s : State) (b : BlockId) (pos length : Nat) : Bool :=
  match s.lenOf b with
  | none => false
  | some len => decide (pos + length ≤ len)

/-- A COPY fault that names one block (R120; DEDUCED, log entry 13). -/
def copyInvalidBlock (c : CopyOperands) (b : BlockId) : FaultRecord :=
  { code := .invalidBlock, op := .copy, word := firstWord (.copy c.srcBlk c.srcPos c.destBlk c.destPos c.length),
    block := some b }

/-- A COPY fault that holds the five operands (R120, 60_exceptions.md R142). -/
def copyOutOfRange (c : CopyOperands) : FaultRecord :=
  { code := .offsetOutOfRange, op := .copy, word := firstWord (.copy c.srcBlk c.srcPos c.destBlk c.destPos c.length),
    copy := some c }

/-- COPY (R120): block ids, then length 0, then the ranges in Debug mode, then the loop. -/
def copyRange (c : CopyOperands) (s : State) : State :=
  if !s.hasBlock c.srcBlk then s.raise (copyInvalidBlock c c.srcBlk)
  else if !s.hasBlock c.destBlk then s.raise (copyInvalidBlock c c.destBlk)
  else if c.length = 0#32 then s
  else if s.isDebug && !(s.rangeFits c.srcBlk c.srcPos.toNat c.length.toNat &&
      s.rangeFits c.destBlk c.destPos.toNat c.length.toNat) then s.raise (copyOutOfRange c)
  else copyLoop c.srcBlk c.srcPos.toNat c.destBlk c.destPos.toNat c.length.toNat s

/-- COPY. -/
def execCopy (srcBlk : BlockId) (srcPos : Position) (destBlk : BlockId) (destPos length : Position) (s : State) :
    Host.Outcome State Fault Refusal :=
  s.unlessLatched
    (.next (copyRange { srcBlk := srcBlk, srcPos := srcPos, destBlk := destBlk, destPos := destPos, length := length } s))

end Sys2Proof.Machine
end

