-- ==== Sys2Proof/Machine/Illegal.lean ====
section
/-! DEFINITION. Words that spell no command, and words with a reserved bit set (spec 30_encoding.md R74, R75). -/

namespace Sys2Proof.Machine

/-- IllegalCommand, in both modes, with the word as fault information (R74). -/
def raiseIllegal (word : Word) (s : State) : State :=
  s.raise { code := .illegalCommand, op := .illegal, word := word }

/-- ReservedFieldNonzero, in both modes (R75). -/
def raiseReserved (op : Mnemonic) (word : Word) (s : State) : State :=
  s.raise { code := .reservedFieldNonzero, op := op, word := word }

/-- A word of the illegal space (R74). -/
def execIllegal (word : Word) (s : State) : Host.Outcome State Fault Refusal :=
  s.unlessLatched (.next (raiseIllegal word s))

/-- A command with a reserved bit set (R75); `step` calls it, since no row of the table spells it. -/
def execReserved (op : Mnemonic) (word : Word) (s : State) : Host.Outcome State Fault Refusal :=
  s.unlessLatched (.next (raiseReserved op word s))

end Sys2Proof.Machine
end

