-- ==== Sys2Proof/Machine/Translation.lean ====
section
/-! DEFINITION. TRANS, RESOLVE and BIND (spec 40_translation.md R80-R83). -/

namespace Sys2Proof.Machine

/-- TRANS (R80): reads neither map. -/
def translateAddr (addr : Addr) (s : State) : State :=
  s.respond (transResponse (pageOf (widen addr)) (offsetOf (widen addr)))

/-- RESOLVE (R81). -/
def resolveEntry (dir : Dir) (page : Page) (s : State) : State :=
  match s.entry dir page.toNat with
  | .bound b => s.respond (boundResponse b)
  | .absent =>
    if s.isDebug then
      s.raise
        { code := .unmappedPage, op := .resolve, word := firstWord (.resolve dir page), page := some page.toNat,
          dir := some dir }
    else s.respond 0#32

/-- BIND (R82). -/
def bindEntry (dir : Dir) (page : Page) (blk : BlockId) (s : State) : State :=
  if s.hasBlock blk then s.setEntry dir page (.bound blk)
  else
    s.raise
      { code := .invalidBlock, op := .bind, word := firstWord (.bind dir page blk), page := some page.toNat,
        dir := some dir, block := some blk }

/-- TRANS. -/
def execTrans (addr : Addr) (s : State) : Host.Outcome State Fault Refusal :=
  s.unlessLatched (.next (translateAddr addr s))

/-- RESOLVE. -/
def execResolve (dir : Dir) (page : Page) (s : State) : Host.Outcome State Fault Refusal :=
  s.unlessLatched (.next (resolveEntry dir page s))

/-- BIND. -/
def execBind (dir : Dir) (page : Page) (blk : BlockId) (s : State) : Host.Outcome State Fault Refusal :=
  s.unlessLatched (.next (bindEntry dir page blk s))

end Sys2Proof.Machine
end

