-- ==== Sys2Proof/Machine/Trap.lean ====
section
/-! DEFINITION. The paging notification and the mapper's answer (spec 42_trap.md R110-R116). -/

namespace Sys2Proof.Machine

/-- ReentrantAccess for RB, WB, RW and RESET inside the answer (R113). -/
def raiseReentrant (i : Instr) (op : Mnemonic) (s : State) : State := s.raise (reentrantRecord op (firstWord i))

/-- Execute one command of the mapper's answer; inTrap is true and no fault is latched (R110, R111, R113). The last arm is never used: no request word decodes to a notification (log entry 14). -/
def runNested (c : Command) (s : State) : State :=
  match c with
  | .reserved op word => raiseReserved op word s
  | .instr (.trans addr) => translateAddr addr s
  | .instr (.rb addr) => raiseReentrant (.rb addr) .rb s
  | .instr (.wb addr data) => raiseReentrant (.wb addr data) .wb s
  | .instr (.rw addr) => raiseReentrant (.rw addr) .rw s
  | .instr (.bind dir page blk) => bindEntry dir page blk s
  | .instr (.resolve dir page) => resolveEntry dir page s
  | .instr (.copy srcBlk srcPos destBlk destPos length) =>
    copyRange { srcBlk := srcBlk, srcPos := srcPos, destBlk := destBlk, destPos := destPos, length := length } s
  | .instr .reset => raiseReentrant .reset .reset s
  | .instr (.illegal word) => raiseIllegal word s
  | .instr (.notify _ _) => s

/-- Execute the commands of an answer in order; a fault stops them (R110, R112). -/
def runAnswer (cs : List Command) (s : State) : State :=
  match cs with
  | [] => s
  | c :: rest => if s.latched then s else runAnswer rest (runNested c s)

/-- A row of MAPPER speaks of this notification (00_scope.md R11). -/
def MapperRow.matches (r : MapperRow) (s : State) (k : RegIndex) (v : Byte) : Bool :=
  r.state == s.mapperState && r.k == k && r.v == v &&
    (match r.table with
      | none => true
      | some t => t == s.pageTable)

/-- What the mapper answers: its next state and the words it issues. -/
structure Answer where
  next : MapperState
  words : List Word
  deriving DecidableEq, Repr

/-- The answers that written-out tuples give for this notification. -/
def State.listedAnswers (s : State) (k : RegIndex) (v : Byte) : List Answer :=
  (s.mapper.rows.filter fun r => r.matches s k v).map fun r => { next := r.next, words := r.answer }

/-- The answer of a mapper that does nothing. -/
def State.noAnswer (s : State) : Answer := { next := s.mapperState, words := [] }

/-- The `n`-th member of the set that the `i`-th relation gives for this notification; an answer is whole commands (00_scope.md R11). -/
def State.relationAnswer (s : State) (i : Nat) (k : RegIndex) (v : Byte) (n : Nat) : Answer :=
  let words := Config.mapperWords i s.mapperState s.pageTable k v n
  { next := Config.mapperNext i s.mapperState s.pageTable k v n, words := if wholeStream words then words else [] }

/-- `a` is a member of the set MAPPER gives for this notification, with mapperState and the page table as they stand (00_scope.md R11). -/
def State.MayAnswer (s : State) (k : RegIndex) (v : Byte) (a : Answer) : Prop :=
  match s.listedAnswers k v with
  | [] =>
    match s.mapper.unlisted with
    | .relation i => ∃ n, a = s.relationAnswer i k v n
    | .nothing => a = s.noAnswer
  | b :: rest => a ∈ b :: rest

/-- Any member of the set (00_scope.md R11): where there may be several, a free value says which (log entry 7). -/
def State.chooseAnswer (s : State) (k : RegIndex) (v : Byte) : Answer × State :=
  match s.listedAnswers k v with
  | [] =>
    match s.mapper.unlisted with
    | .relation i => (s.relationAnswer i k v (Config.freeChoice s.draws), { s with draws := s.draws + 1 })
    | .nothing => (s.noAnswer, s)
  | [a] => (a, s)
  | a :: rest =>
    ((a :: rest)[Config.freeChoice s.draws % (a :: rest).length]?.getD a, { s with draws := s.draws + 1 })

/-- `Notify(k, v)` (R110): log, choose the answer with the page table as it stands, run it with inTrap true, return. An answer that is no sequence of whole commands is refused (log entry 12). -/
def notify (k : RegIndex) (v : Byte) (s : State) : Host.Outcome State Fault Refusal :=
  let logged : State := { s with notifyLog := s.notifyLog ++ [{ k := k, v := v }] }
  let chosen := logged.chooseAnswer k v
  match decodeAll chosen.1.words with
  | none => .refused .truncatedCopy
  | some cs =>
    .next (runAnswer cs ({ chosen.2 with mapperState := chosen.1.next }).enterTrap).leaveTrap

/-- The notification as a row of the table (R110). No agent issues it: `step` reaches `notify` only through WB (log entries 14 and 23). -/
def execNotify (k : RegIndex) (v : Byte) (s : State) : Host.Outcome State Fault Refusal :=
  s.unlessLatched (notify k v s)

end Sys2Proof.Machine
end

