-- ==== Sys2Proof/Machine/Access.lean ====
section
/-! DEFINITION. RB, WB and RW (spec 41_access.md R90-R97). -/

namespace Sys2Proof.Machine

/-- RB past the latch and the reentrancy check (R90). -/
def readByteAt (addr : Addr) (s : State) : Host.Outcome State Fault Refusal :=
  let off := offsetOf (widen addr)
  match s.check .rb (firstWord (.rb addr)) addr .r (pageOf (widen addr)) off 1 with
  | .ok b => .next (s.respond ((s.blkGet b off).setWidth 32))
  | .bad => .next s.respondFreeByte
  | .raised r => .next (s.raise r)
  | .noBlock b => .fault (.noSuchBlock b)

/-- "then", after the store: notify for a paging address (R92, 42_trap.md R110). -/
def afterStore (addr : Addr) (data : Byte) (s : State) : Host.Outcome State Fault Refusal :=
  if isPagingAddr addr then notify (pagingIndex addr) data s else .next s

/-- WB past the latch and the reentrancy check (R92): a Debug fault stops before the store; a Release failure stores nothing and still notifies. -/
def writeByteAt (addr : Addr) (data : Byte) (s : State) : Host.Outcome State Fault Refusal :=
  let off := offsetOf (widen addr)
  match s.check .wb (firstWord (.wb addr data)) addr .w (pageOf (widen addr)) off 1 with
  | .ok b => afterStore addr data (s.blkSet b off data)
  | .bad => afterStore addr data s
  | .raised r => .next (s.raise r)
  | .noBlock b => .fault (.noSuchBlock b)

/-- RW's fast path, off < 1023: two bytes of one block (R94, R95). -/
def readWordFast (addr : Addr) (s : State) : Host.Outcome State Fault Refusal :=
  let off := offsetOf (widen addr)
  match s.check .rw (firstWord (.rw addr)) addr .r (pageOf (widen addr)) off 2 with
  | .ok b => .next (s.respond ((littleEndian (s.blkGet b off) (s.blkGet b (off + 1))).setWidth 32))
  | .bad => .next s.respondFreeHalf
  | .raised r => .next (s.raise r)
  | .noBlock b => .fault (.noSuchBlock b)

/-- RW's split path, off = 1023: the low byte's checks, then the high byte's at `addr + 1` in 17 bits (R93, R95, R96). -/
def readWordSplit (addr : Addr) (s : State) : Host.Outcome State Fault Refusal :=
  let off := offsetOf (widen addr)
  let off2 := offsetOf (highByteAddr addr)
  let c1 := s.check .rw (firstWord (.rw addr)) addr .r (pageOf (widen addr)) off 1
  let c2 := s.check .rw (firstWord (.rw addr)) addr .r (pageOf (highByteAddr addr)) off2 1
  match c1, c2 with
  | .raised r, _ => .next (s.raise r)
  | .noBlock b, _ => .fault (.noSuchBlock b)
  | _, .raised r => .next (s.raise r)
  | _, .noBlock b => .fault (.noSuchBlock b)
  | .ok b1, .ok b2 => .next (s.respond ((littleEndian (s.blkGet b1 off) (s.blkGet b2 off2)).setWidth 32))
  | .ok _, .bad => .next s.respondFreeHalf
  | .bad, .ok _ => .next s.respondFreeHalf
  | .bad, .bad => .next s.respondFreeHalf

/-- RW past the latch and the reentrancy check (R94, R95). -/
def readWordAt (addr : Addr) (s : State) : Host.Outcome State Fault Refusal :=
  if offsetOf (widen addr) < Config.pageSize - 1 then readWordFast addr s else readWordSplit addr s

/-- RB. -/
def execRb (addr : Addr) (s : State) : Host.Outcome State Fault Refusal :=
  s.unlessLatched (s.unlessInTrap .rb (firstWord (.rb addr)) (readByteAt addr s))

/-- WB. -/
def execWb (addr : Addr) (data : Byte) (s : State) : Host.Outcome State Fault Refusal :=
  s.unlessLatched (s.unlessInTrap .wb (firstWord (.wb addr data)) (writeByteAt addr data s))

/-- RW. -/
def execRw (addr : Addr) (s : State) : Host.Outcome State Fault Refusal :=
  s.unlessLatched (s.unlessInTrap .rw (firstWord (.rw addr)) (readWordAt addr s))

end Sys2Proof.Machine
end

