-- ==== Sys2Proof/Machine/Session.lean ====
section
/-! DEFINITION. RESET (spec 44_session.md R130). -/

namespace Sys2Proof.Machine

/-- All 128 entries Absent; nothing else is written (R130). -/
def clearMaps (s : State) : State := { s with readMap := PageMap.allAbsent, writeMap := PageMap.allAbsent }

/-- RESET. -/
def execReset (s : State) : Host.Outcome State Fault Refusal :=
  s.unlessLatched (s.unlessInTrap .reset (firstWord .reset) (.next (clearMaps s)))

end Sys2Proof.Machine
end

