-- ==== Sys2Proof/Machine/Dispatch.lean ====
section
/-! DEFINITION. One arm per command of spec/opcode_table.json. -/

namespace Sys2Proof.Machine

/-- Execute one command. -/
def exec (i : Instr) (s : State) : Host.Outcome State Fault Refusal :=
  match i with
  | .trans addr => Sys2Proof.Machine.execTrans addr s
  | .rb addr => Sys2Proof.Machine.execRb addr s
  | .wb addr data => Sys2Proof.Machine.execWb addr data s
  | .rw addr => Sys2Proof.Machine.execRw addr s
  | .bind dir page blk => Sys2Proof.Machine.execBind dir page blk s
  | .resolve dir page => Sys2Proof.Machine.execResolve dir page s
  | .copy srcBlk srcPos destBlk destPos length => Sys2Proof.Machine.execCopy srcBlk srcPos destBlk destPos length s
  | .reset => Sys2Proof.Machine.execReset s
  | .illegal word => Sys2Proof.Machine.execIllegal word s
  | .notify k v => Sys2Proof.Machine.execNotify k v s

end Sys2Proof.Machine
end

