-- ==== Sys2Proof/Machine/Fetch.lean ====
section
/-! DEFINITION. Taking the next command from the request channel (spec 30_encoding.md R76, 60_exceptions.md R143, 70_reset_and_hazards.md R180). -/

namespace Sys2Proof.Machine

/-- What the block does next. -/
inductive Fetched where
  /-- The stream's last COPY lacks operand words: no run (30_encoding.md R76). -/
  | refused
  /-- A latched fault, or no request: nothing happens (60_exceptions.md R143; log entries 1 and 11). -/
  | idle
  /-- A command of the table, and the state past its words. -/
  | run (i : Instr) (s : State)
  /-- A command with a reserved bit set, and the state past its words (30_encoding.md R75). -/
  | malformed (op : Mnemonic) (word : Word) (s : State)
  deriving DecidableEq, Repr

/-- The first command of the request channel. -/
def State.fetch (s : State) : Fetched :=
  if !wholeStream s.requests then .refused
  else if s.latched then .idle
  else
    match decode s.requests with
    | .empty => .idle
    | .truncatedCopy => .refused
    | .command (.instr i) rest => .run i { s with requests := rest }
    | .command (.reserved op word) rest => .malformed op word { s with requests := rest }

end Sys2Proof.Machine
end

