-- ==== Sys2Proof/Machine/Step.lean ====
section
/-! DEFINITION. One step: the next command of the request channel, to completion (spec 20_memory.md R45, R46). -/

namespace Sys2Proof.Machine

/-- One step of the block. -/
def step (s : State) : Host.Outcome State Fault Refusal :=
  match s.fetch with
  | .refused => .refused .truncatedCopy
  | .idle => .next s
  | .run i s' => exec i s'
  | .malformed op word s' => execReserved op word s'

/-- The state with exactly one instruction on its request channel, given as one number (log entry 22). -/
def State.withFetchWord (s : State) (nbits w : Nat) : State := { s with requests := tableWords nbits w }

end Sys2Proof.Machine
end

