-- ==== Sys2Proof/Machine/Assembler.lean ====
section
/-! DEFINITION. The assembly syntax and the pseudo-instructions (spec 30_encoding.md R78, R79). -/

namespace Sys2Proof.Machine

/-- A line of assembly with its operands as written, before the check that they fit (R78, R79). -/
inductive AsmLine where
  | trans (addr : Nat)
  | rb (addr : Nat)
  | wb (addr data : Nat)
  | rw (addr : Nat)
  | bind (dir : Dir) (page blk : Nat)
  | resolve (dir : Dir) (page : Nat)
  | copy (srcBlk srcPos destBlk destPos len : Nat)
  | reset
  /-- The pseudo-instruction WW (R79). -/
  | ww (addr v16 : Nat)
  /-- The pseudo-instruction BINDRW (R79). -/
  | bindrw (page blk : Nat)
  /-- The pseudo-instruction MAPROM (R79). -/
  | maprom (page rom dummy : Nat)
  deriving DecidableEq, Repr

/-- An operand that does not fit its field is refused (R78). -/
def fitField (width n : Nat) : Option (BitVec width) := if n < 2 ^ width then some (BitVec.ofNat width n) else none

/-- The commands a line stands for; none where an operand does not fit, or for WW at 0xFFFF (R78, R79). -/
def assemble (line : AsmLine) : Option (List Instr) :=
  match line with
  | .trans addr => do return [.trans (← fitField 16 addr)]
  | .rb addr => do return [.rb (← fitField 16 addr)]
  | .wb addr data => do return [.wb (← fitField 16 addr) (← fitField 8 data)]
  | .rw addr => do return [.rw (← fitField 16 addr)]
  | .bind dir page blk => do return [.bind dir (← fitField 6 page) (← fitField 16 blk)]
  | .resolve dir page => do return [.resolve dir (← fitField 6 page)]
  | .copy sb sp db dp len => do
    return [.copy (← fitField 16 sb) (← fitField 32 sp) (← fitField 16 db) (← fitField 32 dp) (← fitField 32 len)]
  | .reset => some [.reset]
  | .ww addr v16 => do
    let low ← fitField 16 addr
    let high ← fitField 16 (addr + 1)
    let v ← fitField 16 v16
    return [.wb low (v.extractLsb' 0 8), .wb high (v.extractLsb' 8 8)]
  | .bindrw page blk => do
    let p ← fitField 6 page
    let b ← fitField 16 blk
    return [.bind .r p b, .bind .w p b]
  | .maprom page rom dummy => do
    let p ← fitField 6 page
    return [.bind .r p (← fitField 16 rom), .bind .w p (← fitField 16 dummy)]

/-- A blank of a line: a space or a tab (log entry 19). -/
def isBlank (c : Char) : Bool := c == ' ' || c == '\t'

/-- A text without the blanks around it. -/
def trimBlanks (cs : List Char) : List Char := ((cs.dropWhile isBlank).reverse.dropWhile isBlank).reverse

/-- The value of a decimal or hexadecimal digit; hexadecimal letters of either case (log entry 19). -/
def digitValue (base : Nat) (c : Char) : Option Nat :=
  let n := c.toNat
  let d :=
    if 48 ≤ n ∧ n ≤ 57 then n - 48
    else if 65 ≤ n ∧ n ≤ 70 then n - 55
    else if 97 ≤ n ∧ n ≤ 102 then n - 87
    else base
  if d < base then some d else none

/-- A run of digits after the value read so far. -/
def digitsFrom (base acc : Nat) (cs : List Char) : Option Nat :=
  match cs with
  | [] => some acc
  | c :: rest =>
    match digitValue base c with
    | none => none
    | some d => digitsFrom base (acc * base + d) rest

/-- A number, decimal or 0x-hexadecimal (R78). -/
def parseNumber (cs : List Char) : Option Nat :=
  match cs with
  | [] => none
  | ['0', 'x'] => none
  | '0' :: 'x' :: digits => digitsFrom 16 0 digits
  | digits => digitsFrom 10 0 digits

/-- `R` or `W` (R78). -/
def parseDir (cs : List Char) : Option Dir :=
  match cs with
  | ['R'] => some .r
  | ['W'] => some .w
  | _ => none

/-- The pieces of a text between its commas. -/
def splitCommas (cs : List Char) : List (List Char) :=
  match cs with
  | [] => [[]]
  | c :: rest =>
    match splitCommas rest with
    | [] => [[c]]
    | piece :: more => if c = ',' then [] :: piece :: more else (c :: piece) :: more

/-- A line's mnemonic and operand texts; the comment from `;` on is dropped (R78). -/
def splitLine (cs : List Char) : List Char × List (List Char) :=
  let text := trimBlanks (cs.takeWhile (· != ';'))
  let name := text.takeWhile (fun c => !isBlank c)
  let operands := trimBlanks (text.dropWhile (fun c => !isBlank c))
  (name, if operands = [] then [] else (splitCommas operands).map trimBlanks)

/-- A line whose operands are all numbers (R78, R79). -/
def numberLine (name : List Char) (args : List Nat) : Option AsmLine :=
  match name, args with
  | ['T', 'R', 'A', 'N', 'S'], [a] => some (.trans a)
  | ['R', 'B'], [a] => some (.rb a)
  | ['W', 'B'], [a, d] => some (.wb a d)
  | ['R', 'W'], [a] => some (.rw a)
  | ['C', 'O', 'P', 'Y'], [sb, sp, db, dp, n] => some (.copy sb sp db dp n)
  | ['R', 'E', 'S', 'E', 'T'], [] => some .reset
  | ['W', 'W'], [a, v] => some (.ww a v)
  | ['B', 'I', 'N', 'D', 'R', 'W'], [p, b] => some (.bindrw p b)
  | ['M', 'A', 'P', 'R', 'O', 'M'], [p, rom, dummy] => some (.maprom p rom dummy)
  | _, _ => none

/-- A line whose first operand is a direction (R78). -/
def dirLine (name : List Char) (dir : Dir) (args : List Nat) : Option AsmLine :=
  match name, args with
  | ['B', 'I', 'N', 'D'], [p, b] => some (.bind dir p b)
  | ['R', 'E', 'S', 'O', 'L', 'V', 'E'], [p] => some (.resolve dir p)
  | _, _ => none

/-- A line of text: `none` where it is no line of R78, `some none` for a line without a command. -/
def parseLine (cs : List Char) : Option (Option AsmLine) :=
  match splitLine cs with
  | ([], []) => some none
  | (name, []) => (numberLine name []).map some
  | (name, first :: more) =>
    match parseDir first with
    | some dir => do return some (← dirLine name dir (← more.mapM parseNumber))
    | none => do return some (← numberLine name (← (first :: more).mapM parseNumber))

/-- The commands of a text of lines, in order; none where a line is refused. -/
def assembleText (lines : List (List Char)) : Option (List Instr) :=
  match lines with
  | [] => some []
  | cs :: rest => do
    let parsed ← parseLine cs
    let first ←
      match parsed with
      | none => some []
      | some line => assemble line
    return first ++ (← assembleText rest)

/-- The words of a text of lines: the program as the request channel carries it. -/
def assembleWords (lines : List (List Char)) : Option (List Word) :=
  (assembleText lines).map fun is => is.flatMap encode

end Sys2Proof.Machine
end

