-- ==== Sys2Proof/Safety.lean ====
section
/-! DEFINITION. The end of a run, its observation, and covered accesses (spec 70_reset_and_hazards.md R180, 40_translation.md R86). -/

namespace Sys2Proof.Machine

/-- A run has ended normally: no request is left, no fault is latched, no answer is running (R180). -/
def State.endedNormally (s : State) : Bool := s.requests.isEmpty && !s.latched && !s.inTrap

/-- A run is faulted, not ended (R180). -/
def State.isFaulted (s : State) : Bool := s.latched

/-- What a run is observed by (R180). -/
structure Observation where
  readMap : PageMap
  writeMap : PageMap
  blocks : List Block
  notifyLog : List Notification
  responses : List Response
  deriving DecidableEq, Repr

/-- The observation of a state (R180). -/
def State.observe (s : State) : Observation where
  readMap := s.readMap
  writeMap := s.writeMap
  blocks := s.blocks
  notifyLog := s.notifyLog
  responses := s.responses

/-- The launch parameters a state carries, which no step changes (00_scope.md R7): MODE, MAPPER, and every block's length. -/
structure Fixed where
  mode : Mode
  mapper : Mapper
  lengths : List Nat
  deriving DecidableEq, Repr

/-- The fixed part of a state. -/
def State.fixed (s : State) : Fixed where
  mode := s.mode
  mapper := s.mapper
  lengths := s.blocks.map Block.len

/-- The entry of page p in a map is present and its block covers `need` bytes from `off`: what R86 asks of every access. -/
def State.covers (s : State) (dir : Dir) (p off need : Nat) : Bool :=
  match s.entry dir p with
  | .absent => false
  | .bound b =>
    match s.lenOf b with
    | none => false
    | some len => decide (off + need ≤ len)

/-- An access command finds every byte it needs (R86): one byte for RB and WB, two of one page or one of each of two pages for RW. -/
def State.accessCovered (s : State) (i : Instr) : Bool :=
  match i with
  | .rb addr => s.covers .r (pageOf (widen addr)) (offsetOf (widen addr)) 1
  | .wb addr _ => s.covers .w (pageOf (widen addr)) (offsetOf (widen addr)) 1
  | .rw addr =>
    if offsetOf (widen addr) < Config.pageSize - 1 then s.covers .r (pageOf (widen addr)) (offsetOf (widen addr)) 2
    else
      s.covers .r (pageOf (widen addr)) (offsetOf (widen addr)) 1 &&
        s.covers .r (pageOf (highByteAddr addr)) (offsetOf (highByteAddr addr)) 1
  | .trans _ => true
  | .bind _ _ _ => true
  | .resolve _ _ => true
  | .copy _ _ _ _ _ => true
  | .reset => true
  | .illegal _ => true
  | .notify _ _ => true

end Sys2Proof.Machine
end

