-- ==== Sys2Proof/Certificates/Slice0/Obligations.lean ====
section
/-! DEFINITION. The statements for the provers. An address's page is written `addr.toNat / 1024` and its offset `addr.toNat % 1024` (spec 00_scope.md R15). -/

open Sys2Proof Sys2Proof.Machine

/-! ## Encoding -/

/-- One word of each row decodes to its command: of the request words of 95_test_vectors.md one for each command, one illegal word, one word with reserved bits set; and R110's example (42_trap.md) for the notification. -/
def Obligations.TestVectorWordsDecode : Prop :=
  decode [0x00008123#32] = .command (.instr (.trans 0x8123#16)) [] ∧
  decode [0x100001FF#32] = .command (.instr (.rb 0x01FF#16)) [] ∧
  decode [0x20A5FFFC#32] = .command (.instr (.wb 0xFFFC#16 0xA5#8)) [] ∧
  decode [0x300003FE#32] = .command (.instr (.rw 0x03FE#16)) [] ∧
  decode [0x413FFFFF#32] = .command (.instr (.bind .w 63#6 0xFFFF#16)) [] ∧
  decode [0x50050000#32] = .command (.instr (.resolve .r 5#6)) [] ∧
  decode [0x60000000#32, 0#32, 2#32, 0#32, 3#32] = .command (.instr (.copy 0#16 2#32 0#16 0#32 3#32)) [] ∧
  decode [0x70000000#32] = .command (.instr .reset) [] ∧
  decode [0xF0000003#32] = .command (.instr (.illegal 0xF0000003#32)) [] ∧
  decode [0x12000003#32] = .command (.reserved .rb 0x12000003#32) [] ∧
  decodeNotification 0x00000205#32 = some (.notify 2#2 5#8)

/-- Decoding the words of a well-formed request gives it back, whatever follows it; the same on the notification channel. -/
def Obligations.DecodeOfEncodeIsTheCommand : Prop :=
  (∀ (i : Instr) (rest : List Word), i.wfRequest = true → decode (encode i ++ rest) = .command (.instr i) rest) ∧
  (∀ (k : RegIndex) (v : Byte), decodeNotification (notificationWord k v) = some (.notify k v))

/-- A decoded command is a well-formed request whose words stood at the head of the stream: no bit is dropped and no second word spells it. -/
def Obligations.EncodeOfDecodeIsTheWords : Prop :=
  ∀ (ws rest : List Word) (i : Instr), decode ws = .command (.instr i) rest →
    i.wfRequest = true ∧ ws = encode i ++ rest

/-- The one-word layouts of 30_encoding.md R64-R69 and R71: the words that match a row's mask decode to its command with the fields read straight from their bits. -/
def Obligations.LayoutsAsTabled : Prop :=
  ∀ (w : Word) (rest : List Word),
    (w &&& 0xFFFF0000#32 = 0x00000000#32 → decode (w :: rest) = .command (.instr (.trans (w.setWidth 16))) rest) ∧
    (w &&& 0xFFFF0000#32 = 0x10000000#32 → decode (w :: rest) = .command (.instr (.rb (w.setWidth 16))) rest) ∧
    (w &&& 0xFF000000#32 = 0x20000000#32 →
      decode (w :: rest) = .command (.instr (.wb (w.setWidth 16) ((w >>> 16).setWidth 8))) rest) ∧
    (w &&& 0xFFFF0000#32 = 0x30000000#32 → decode (w :: rest) = .command (.instr (.rw (w.setWidth 16))) rest) ∧
    (w &&& 0xFEC00000#32 = 0x40000000#32 →
      decode (w :: rest) =
        .command (.instr (.bind (if w.toNat / 2 ^ 24 % 2 = 1 then .w else .r) ((w >>> 16).setWidth 6) (w.setWidth 16))) rest) ∧
    (w &&& 0xFEC0FFFF#32 = 0x50000000#32 →
      decode (w :: rest) =
        .command (.instr (.resolve (if w.toNat / 2 ^ 24 % 2 = 1 then .w else .r) ((w >>> 16).setWidth 6))) rest) ∧
    (w = 0x70000000#32 → decode (w :: rest) = .command (.instr .reset) rest)

/-- COPY takes five words, laid out as 30_encoding.md R70 says. -/
def Obligations.CopyLayoutAsTabled : Prop :=
  ∀ (w0 w1 w2 w3 w4 : Word) (rest : List Word), w0 &&& 0xFFFF0000#32 = 0x60000000#32 → w1 &&& 0xFFFF0000#32 = 0#32 →
    decode (w0 :: w1 :: w2 :: w3 :: w4 :: rest) =
      .command (.instr (.copy (w0.setWidth 16) w2 (w1.setWidth 16) w3 w4)) rest

/-- A word with opcode 0x8..0xF spells no command of the interface: it decodes to the illegal command, and executing it raises IllegalCommand in both modes with the word as fault information (30_encoding.md R74). The record's other fields and the constructor are the model's reading (log entries 13 and 15). -/
def Obligations.IllegalOpcodeRaisesIllegalCommand : Prop :=
  ∀ (s : State) (w : Word) (rest : List Word), 8 ≤ w.toNat / 2 ^ 28 →
    decode (w :: rest) = .command (.instr (.illegal w)) rest ∧
    (s.fault = none →
      exec (.illegal w) s = .next { s with fault := some { code := .illegalCommand, op := .illegal, word := w } })

/-- A request word of opcode 0x0..0x7 with a reserved bit set, or a COPY whose word 1 has one, decodes to no command of the table, and executing it raises ReservedFieldNonzero in both modes (30_encoding.md R75). The record's fields and a COPY's five words are the model's reading (log entries 13 and 15). -/
def Obligations.ReservedBitRaisesReservedFieldNonzero : Prop :=
  ∀ (s : State) (w : Word) (rest : List Word), s.fault = none →
    (∀ row ∈ [(0, Mnemonic.trans, 0xFFFF0000#32, 0x00000000#32), (1, Mnemonic.rb, 0xFFFF0000#32, 0x10000000#32),
        (2, Mnemonic.wb, 0xFF000000#32, 0x20000000#32), (3, Mnemonic.rw, 0xFFFF0000#32, 0x30000000#32),
        (4, Mnemonic.bind, 0xFEC00000#32, 0x40000000#32), (5, Mnemonic.resolve, 0xFEC0FFFF#32, 0x50000000#32),
        (7, Mnemonic.reset, 0xFFFFFFFF#32, 0x70000000#32)],
      w.toNat / 2 ^ 28 = row.1 → w &&& row.2.2.1 ≠ row.2.2.2 →
        decode (w :: rest) = .command (.reserved row.2.1 w) rest ∧
        execReserved row.2.1 w s =
          .next { s with fault := some { code := .reservedFieldNonzero, op := row.2.1, word := w } }) ∧
    (∀ w1 w2 w3 w4, w.toNat / 2 ^ 28 = 6 → (w &&& 0xFFFF0000#32 ≠ 0x60000000#32 ∨ w1 &&& 0xFFFF0000#32 ≠ 0#32) →
      decode (w :: w1 :: w2 :: w3 :: w4 :: rest) = .command (.reserved .copy w) rest ∧
      execReserved .copy w s =
        .next { s with fault := some { code := .reservedFieldNonzero, op := .copy, word := w } })

/-- A stream of whole commands followed by a COPY that lacks operand words is refused as a whole, from its first command on (30_encoding.md R76). -/
def Obligations.TruncatedCopyStreamIsRefused : Prop :=
  ∀ (s : State) (is : List Instr) (w : Word) (operands : List Word), (∀ i ∈ is, i.wfRequest = true) →
    w.toNat / 2 ^ 28 = 6 → operands.length < 4 → s.requests = is.flatMap encode ++ w :: operands →
      step s = .refused .truncatedCopy

/-- A stream of encoded requests decodes, whole, to those requests in order. -/
def Obligations.EncodedStreamDecodesToItsCommands : Prop :=
  ∀ is : List Instr, (∀ i ∈ is, i.wfRequest = true) →
    wholeStream (is.flatMap encode) = true ∧ decodeAll (is.flatMap encode) = some (is.map .instr)

/-- The decoder refuses a stream exactly where the framing of 30_encoding.md R76 does: whole commands only, no operand word missing. -/
def Obligations.DecoderRefusesExactlyIncompleteStreams : Prop :=
  ∀ ws : List Word, wholeStream ws = (decodeAll ws).isSome

/-- The notification word of 30_encoding.md R72. -/
def Obligations.NotificationWordLayout : Prop :=
  ∀ (k : RegIndex) (v : Byte),
    (notificationWord k v).extractLsb' 10 22 = 0#22 ∧ (notificationWord k v).extractLsb' 8 2 = k ∧
    (notificationWord k v).extractLsb' 0 8 = v ∧ (notificationWord k v).toNat = k.toNat * 256 + v.toNat

/-- The expansions of the pseudo-instructions, and what is refused (30_encoding.md R79). -/
def Obligations.PseudoInstructionExpansions : Prop :=
  (∀ addr v16 : Nat, addr < 0xFFFF → v16 < 2 ^ 16 →
    assemble (.ww addr v16) =
      some [.wb (BitVec.ofNat 16 addr) (BitVec.ofNat 8 (v16 % 256)),
        .wb (BitVec.ofNat 16 (addr + 1)) (BitVec.ofNat 8 (v16 / 256))]) ∧
  (∀ v16 : Nat, assemble (.ww 0xFFFF v16) = none) ∧
  (∀ page blk : Nat, page < 64 → blk < 2 ^ 16 →
    assemble (.bindrw page blk) =
      some [.bind .r (BitVec.ofNat 6 page) (BitVec.ofNat 16 blk), .bind .w (BitVec.ofNat 6 page) (BitVec.ofNat 16 blk)]) ∧
  (∀ page rom dummy : Nat, page < 64 → rom < 2 ^ 16 → dummy < 2 ^ 16 →
    assemble (.maprom page rom dummy) =
      some [.bind .r (BitVec.ofNat 6 page) (BitVec.ofNat 16 rom), .bind .w (BitVec.ofNat 6 page) (BitVec.ofNat 16 dummy)])

/-! ## Session start, and the step -/

/-- The session-start state of any launch (10_state.md R36, 70_reset_and_hazards.md R170). -/
def Obligations.SessionStartState : Prop :=
  ∀ l : Launch,
    (∀ p < 64, (State.launch l).readMap[p]? = some .absent ∧ (State.launch l).writeMap[p]? = some .absent) ∧
    (State.launch l).blocks = l.blocks ∧ (State.launch l).fault = none ∧ (State.launch l).inTrap = false ∧
    (State.launch l).notifyLog = [] ∧ (State.launch l).mode = l.mode ∧
    (State.launch l).mapperState = l.mapperState ∧ (State.launch l).mapper = l.mapper

/-- A launch of 00_scope.md R7 starts in a well-formed state, and so does State.reset, whose launch is the model's choice (log entries 3, 4 and 5). -/
def Obligations.SessionStartIsWellFormed : Prop :=
  (∀ l : Launch, l.wf = true → (State.launch l).wf = true) ∧ State.reset = State.launch Launch.default ∧
    State.reset.wf = true

/-- When the words at the head of a whole request stream decode to a command and no fault is latched, the step is exec of that command on the state past its words; for a word with a reserved bit set it is that fault, there too. -/
def Obligations.StepRunsTheDecodedCommand : Prop :=
  ∀ (s : State) (rest : List Word), s.fault = none → wholeStream s.requests = true →
    (∀ i : Instr, decode s.requests = .command (.instr i) rest → core.step s = exec i { s with requests := rest }) ∧
    (∀ (op : Mnemonic) (w : Word), decode s.requests = .command (.reserved op w) rest →
      core.step s = execReserved op w { s with requests := rest })

/-- With no request the block does nothing: the model's choice (log entry 1). -/
def Obligations.NoRequestLeavesTheStateAlone : Prop :=
  ∀ s : State, s.requests = [] → step s = .next s

/-- Once a fault is latched no command, of any agent, is executed, no notification is issued, no step changes the state or clears the fault, and the state is no normal end (10_state.md R29, 60_exceptions.md R143). That a step answers the same state with the requests left on the channel (log entry 11), and that it does so only on a whole stream (log entry 12), is the model's reading. -/
def Obligations.LatchedFaultStopsEverything : Prop :=
  ∀ (s : State) (r : FaultRecord), s.fault = some r →
    (∀ i : Instr, exec i s = .next s) ∧ (wholeStream s.requests = true → step s = .next s) ∧
    (∀ t, step s = .next t → t = s) ∧ s.endedNormally = false

/-- The canonical form of every block, the legality of every map entry, NUM_BLOCKS in its range, inTrap only with a latched fault, whole written-out mapper answers: every step keeps them, from every state that has them. -/
def Obligations.StepKeepsStateWellFormed : Prop :=
  ∀ s t : State, s.wf = true → step s = .next t → t.wf = true

/-- In a well-formed state whose request stream is whole, a step always answers a next state: the model neither faults nor refuses there. -/
def Obligations.WellFormedStateAlwaysSteps : Prop :=
  ∀ s : State, s.wf = true → wholeStream s.requests = true → ∃ t, step s = .next t

/-- No step changes MODE, MAPPER, the number of blocks or a block's length. -/
def Obligations.StepKeepsLaunchParameters : Prop :=
  ∀ s t : State, step s = .next t →
    t.mode = s.mode ∧ t.mapper = s.mapper ∧ t.blocks.map Block.len = s.blocks.map Block.len

/-- The request channel only loses the words of the command that was taken, and the response and notification records only grow. -/
def Obligations.StepConsumesRequestsAndOnlyAppends : Prop :=
  ∀ s t : State, step s = .next t →
    t.requests <:+ s.requests ∧ s.responses <+: t.responses ∧ s.notifyLog <+: t.notifyLog

/-! ## TRANS, RESOLVE, BIND -/

/-- TRANS (40_translation.md R80), and the fault latch on it. -/
def Obligations.TransAnswersPageAndOffset : Prop :=
  ∀ (s : State) (addr : Addr),
    (s.fault = none → ∃ w : Word,
      exec (.trans addr) s =
        .next { s with responses := s.responses ++ [{ recipient := if s.inTrap then .mapper else .issuer, word := w }] } ∧
      w.toNat = addr.toNat / 1024 * 2 ^ 10 + addr.toNat % 1024 ∧ (w.extractLsb' 10 6).toNat = addr.toNat / 1024 ∧
      (w.extractLsb' 0 10).toNat = addr.toNat % 1024 ∧ w = addr.setWidth 32) ∧
    (s.fault ≠ none → exec (.trans addr) s = .next s)

/-- RESOLVE (40_translation.md R81): bound, absent in Debug, absent in Release. -/
def Obligations.ResolveAnswersTheEntry : Prop :=
  ∀ (s : State) (dir : Dir) (page : Page), s.fault = none →
    (∀ b, (s.mapOf dir)[page.toNat]? = some (.bound b) →
      exec (.resolve dir page) s =
        .next { s with responses := s.responses ++ [{ recipient := if s.inTrap then .mapper else .issuer, word := 0x0001#16 ++ b }] }) ∧
    ((s.mapOf dir)[page.toNat]? = some .absent → s.mode = .debug →
      exec (.resolve dir page) s =
        .next { s with fault := some { code := .unmappedPage, op := .resolve, word := firstWord (.resolve dir page), page := some page.toNat, dir := some dir } }) ∧
    ((s.mapOf dir)[page.toNat]? = some .absent → s.mode = .release →
      exec (.resolve dir page) s =
        .next { s with responses := s.responses ++ [{ recipient := if s.inTrap then .mapper else .issuer, word := 0#32 }] })

/-- BIND (40_translation.md R82): the one entry, or InvalidBlock in both modes; inside a notification as outside. -/
def Obligations.BindInstallsTheBlock : Prop :=
  ∀ (s : State) (page : Page) (blk : BlockId), s.fault = none →
    (blk.toNat < s.blocks.length →
      exec (.bind .r page blk) s = .next { s with readMap := s.readMap.set page.toNat (.bound blk) page.isLt } ∧
      exec (.bind .w page blk) s = .next { s with writeMap := s.writeMap.set page.toNat (.bound blk) page.isLt }) ∧
    (s.blocks.length ≤ blk.toNat → ∀ dir : Dir,
      exec (.bind dir page blk) s =
        .next { s with fault := some { code := .invalidBlock, op := .bind, word := firstWord (.bind dir page blk), page := some page.toNat, dir := some dir, block := some blk } })

/-- After a BIND the very next access through that entry uses the new block; every other entry and every byte of every block is as before (40_translation.md R83, 20_memory.md R56, R57). -/
def Obligations.RebindTakesEffectAtOnce : Prop :=
  ∀ (s t : State) (dir : Dir) (page : Page) (b : BlockId), s.fault = none → b.toNat < s.blocks.length →
    exec (.bind dir page b) s = .next t →
      (∀ (d : Dir) (p : Nat), p < 64 →
        (t.mapOf d)[p]? = if d = dir ∧ p = page.toNat then some (.bound b) else (s.mapOf d)[p]?) ∧
      (∀ (b' : BlockId) (j : Nat), t.readByte b' j = s.readByte b' j) ∧
      (dir = .r → s.inTrap = false → ∀ (addr : Addr) (v : Byte), addr.toNat / 1024 = page.toNat →
        s.readByte b (addr.toNat % 1024) = some v →
          exec (.rb addr) t =
            .next { t with responses := t.responses ++ [{ recipient := .issuer, word := v.setWidth 32 }] }) ∧
      (dir = .w → s.inTrap = false → ∀ (addr : Addr) (x old : Byte), addr.toNat / 1024 = page.toNat → addr.toNat < 0xFFFC →
        s.readByte b (addr.toNat % 1024) = some old →
          exec (.wb addr x) t = .next (t.blkSet b (addr.toNat % 1024) x))

/-! ## RB, WB, RW -/

/-- RB (41_access.md R90): reentrancy, the bound byte, the two Debug faults, a free byte in Release. A ReentrantAccess record without addr is the model's reading (log entry 13). -/
def Obligations.RbAnswersTheBoundByte : Prop :=
  ∀ (s : State) (addr : Addr), s.fault = none →
    (s.inTrap = true →
      exec (.rb addr) s =
        .next { s with fault := some { code := .reentrantAccess, op := .rb, word := 0x1000#16 ++ addr } }) ∧
    (s.inTrap = false → ∀ b, s.readMap[addr.toNat / 1024]? = some (.bound b) →
      (∀ v, s.readByte b (addr.toNat % 1024) = some v →
        exec (.rb addr) s =
          .next { s with responses := s.responses ++ [{ recipient := .issuer, word := v.setWidth 32 }] }) ∧
      (∀ len, s.lenOf b = some len → len ≤ addr.toNat % 1024 →
        (s.mode = .debug →
          exec (.rb addr) s =
            .next { s with fault := some { code := .offsetOutOfRange, op := .rb, word := 0x1000#16 ++ addr, addr := some addr, page := some (addr.toNat / 1024), dir := some .r, offset := some (addr.toNat % 1024), block := some b, length := some len, need := some 1 } }) ∧
        (s.mode = .release → ∃ x : Byte,
          exec (.rb addr) s =
            .next { s with responses := s.responses ++ [{ recipient := .issuer, word := x.setWidth 32 }], draws := s.draws + 1 }))) ∧
    (s.inTrap = false → s.readMap[addr.toNat / 1024]? = some .absent →
      (s.mode = .debug →
        exec (.rb addr) s =
          .next { s with fault := some { code := .unmappedPage, op := .rb, word := 0x1000#16 ++ addr, addr := some addr, page := some (addr.toNat / 1024), dir := some .r, offset := some (addr.toNat % 1024) } }) ∧
      (s.mode = .release → ∃ x : Byte,
        exec (.rb addr) s =
          .next { s with responses := s.responses ++ [{ recipient := .issuer, word := x.setWidth 32 }], draws := s.draws + 1 }))

/-- WB (41_access.md R92): reentrancy; the store through writeMap and then, from 0xFFFC on, the notification of the stored state; a Debug fault before the store; in Release a failed store that still notifies. A ReentrantAccess record without addr is the model's reading (log entry 13). -/
def Obligations.WbStoresThenNotifies : Prop :=
  ∀ (s : State) (addr : Addr) (data : Byte), s.fault = none →
    (s.inTrap = true →
      exec (.wb addr data) s =
        .next { s with fault := some { code := .reentrantAccess, op := .wb, word := 0x20#8 ++ data ++ addr } }) ∧
    (s.inTrap = false → ∀ b len, s.writeMap[addr.toNat / 1024]? = some (.bound b) → s.lenOf b = some len →
      (addr.toNat % 1024 < len →
        (addr.toNat < 0xFFFC → exec (.wb addr data) s = .next (s.blkSet b (addr.toNat % 1024) data)) ∧
        (0xFFFC ≤ addr.toNat →
          exec (.wb addr data) s =
            exec (.notify (BitVec.ofNat 2 (addr.toNat - 0xFFFC)) data) (s.blkSet b (addr.toNat % 1024) data))) ∧
      (len ≤ addr.toNat % 1024 →
        (s.mode = .debug →
          exec (.wb addr data) s =
            .next { s with fault := some { code := .offsetOutOfRange, op := .wb, word := 0x20#8 ++ data ++ addr, addr := some addr, page := some (addr.toNat / 1024), dir := some .w, offset := some (addr.toNat % 1024), block := some b, length := some len, need := some 1 } }) ∧
        (s.mode = .release →
          (addr.toNat < 0xFFFC → exec (.wb addr data) s = .next s) ∧
          (0xFFFC ≤ addr.toNat →
            exec (.wb addr data) s = exec (.notify (BitVec.ofNat 2 (addr.toNat - 0xFFFC)) data) s)))) ∧
    (s.inTrap = false → s.writeMap[addr.toNat / 1024]? = some .absent →
      (s.mode = .debug →
        exec (.wb addr data) s =
          .next { s with fault := some { code := .unmappedPage, op := .wb, word := 0x20#8 ++ data ++ addr, addr := some addr, page := some (addr.toNat / 1024), dir := some .w, offset := some (addr.toNat % 1024) } }) ∧
      (s.mode = .release →
        (addr.toNat < 0xFFFC → exec (.wb addr data) s = .next s) ∧
        (0xFFFC ≤ addr.toNat →
          exec (.wb addr data) s = exec (.notify (BitVec.ofNat 2 (addr.toNat - 0xFFFC)) data) s)))

/-- BlkSet changes its byte and no other byte of any block, and no length (00_scope.md R14, 10_state.md R26). -/
def Obligations.BlkSetChangesOneByte : Prop :=
  ∀ (s : State) (b b' : BlockId) (i j : Nat) (x old : Byte), s.wf = true → s.readByte b i = some old →
    (s.blkSet b i x).readByte b' j = (if b' = b ∧ j = i then some x else s.readByte b' j) ∧
    (s.blkSet b i x).lenOf b' = s.lenOf b'

/-- RW on its fast path (41_access.md R94, R95): two bytes of one block, little-endian; the two Debug faults; one free half word in Release. -/
def Obligations.RwFastPath : Prop :=
  ∀ (s : State) (addr : Addr), s.fault = none → s.inTrap = false → addr.toNat % 1024 < 1023 →
    (∀ b, s.readMap[addr.toNat / 1024]? = some (.bound b) →
      (∀ low high, s.readByte b (addr.toNat % 1024) = some low → s.readByte b (addr.toNat % 1024 + 1) = some high →
        exec (.rw addr) s =
          .next { s with responses := s.responses ++ [{ recipient := .issuer, word := 0#16 ++ high ++ low }] }) ∧
      (∀ len, s.lenOf b = some len → len < addr.toNat % 1024 + 2 →
        (s.mode = .debug →
          exec (.rw addr) s =
            .next { s with fault := some { code := .offsetOutOfRange, op := .rw, word := 0x3000#16 ++ addr, addr := some addr, page := some (addr.toNat / 1024), dir := some .r, offset := some (addr.toNat % 1024), block := some b, length := some len, need := some 2 } }) ∧
        (s.mode = .release → ∃ x : Half,
          exec (.rw addr) s =
            .next { s with responses := s.responses ++ [{ recipient := .issuer, word := x.setWidth 32 }], draws := s.draws + 1 }))) ∧
    (s.readMap[addr.toNat / 1024]? = some .absent →
      (s.mode = .debug →
        exec (.rw addr) s =
          .next { s with fault := some { code := .unmappedPage, op := .rw, word := 0x3000#16 ++ addr, addr := some addr, page := some (addr.toNat / 1024), dir := some .r, offset := some (addr.toNat % 1024) } }) ∧
      (s.mode = .release → ∃ x : Half,
        exec (.rw addr) s =
          .next { s with responses := s.responses ++ [{ recipient := .issuer, word := x.setWidth 32 }], draws := s.draws + 1 }))

/-- RW on its split path (41_access.md R93, R95, R96): the low byte at index 1023 of its block, the high byte at index 0 of the block the next page binds; the low byte's checks first. Page 64 has no entry. -/
def Obligations.RwSplitPath : Prop :=
  ∀ (s : State) (addr : Addr), s.fault = none → s.inTrap = false → addr.toNat % 1024 = 1023 →
    (∀ b1 low, s.readMap[addr.toNat / 1024]? = some (.bound b1) → s.readByte b1 1023 = some low →
      (∀ b2, s.readMap[addr.toNat / 1024 + 1]? = some (.bound b2) →
        (∀ high, s.readByte b2 0 = some high →
          exec (.rw addr) s =
            .next { s with responses := s.responses ++ [{ recipient := .issuer, word := 0#16 ++ high ++ low }] }) ∧
        (s.lenOf b2 = some 0 → s.mode = .debug →
          exec (.rw addr) s =
            .next { s with fault := some { code := .offsetOutOfRange, op := .rw, word := 0x3000#16 ++ addr, addr := some addr, page := some (addr.toNat / 1024 + 1), dir := some .r, offset := some 0, block := some b2, length := some 0, need := some 1 } })) ∧
      ((s.readMap[addr.toNat / 1024 + 1]? = none ∨ s.readMap[addr.toNat / 1024 + 1]? = some .absent) → s.mode = .debug →
        exec (.rw addr) s =
          .next { s with fault := some { code := .unmappedPage, op := .rw, word := 0x3000#16 ++ addr, addr := some addr, page := some (addr.toNat / 1024 + 1), dir := some .r, offset := some 0 } })) ∧
    (∀ b1 len, s.readMap[addr.toNat / 1024]? = some (.bound b1) → s.lenOf b1 = some len → len ≤ 1023 → s.mode = .debug →
      exec (.rw addr) s =
        .next { s with fault := some { code := .offsetOutOfRange, op := .rw, word := 0x3000#16 ++ addr, addr := some addr, page := some (addr.toNat / 1024), dir := some .r, offset := some 1023, block := some b1, length := some len, need := some 1 } }) ∧
    (s.readMap[addr.toNat / 1024]? = some .absent → s.mode = .debug →
      exec (.rw addr) s =
        .next { s with fault := some { code := .unmappedPage, op := .rw, word := 0x3000#16 ++ addr, addr := some addr, page := some (addr.toNat / 1024), dir := some .r, offset := some 1023 } })

/-- RW at 0xFFFF: page 64 is never bound, so once the low byte is found Debug faults with UnmappedPage for page 64 (41_access.md R93). -/
def Obligations.RwAtTopOfAddressSpace : Prop :=
  ∀ (s : State) (b : BlockId) (low : Byte), s.fault = none → s.inTrap = false → s.readMap[63]? = some (.bound b) →
    s.readByte b 1023 = some low →
      (s.mode = .debug →
        exec (.rw 0xFFFF#16) s =
          .next { s with fault := some { code := .unmappedPage, op := .rw, word := 0x3000FFFF#32, addr := some 0xFFFF#16, page := some 64, dir := some .r, offset := some 0 } }) ∧
      (s.mode = .release → ∃ x : Half,
        exec (.rw 0xFFFF#16) s =
          .next { s with responses := s.responses ++ [{ recipient := .issuer, word := x.setWidth 32 }], draws := s.draws + 1 })

/-- In Release mode, when a byte of the word is not found, the whole 16-bit result is one free value, and RW completes (41_access.md R97). -/
def Obligations.RwReleaseDrawsTheWholeWord : Prop :=
  ∀ (s : State) (addr : Addr), s.wf = true → s.fault = none → s.mode = .release → s.accessCovered (.rw addr) = false →
    ∃ x : Half,
      exec (.rw addr) s =
        .next { s with responses := s.responses ++ [{ recipient := .issuer, word := x.setWidth 32 }], draws := s.draws + 1 }

/-- For a below 0xFFFF in Debug mode, where RW a completes so do RB a and RB (a + 1) in the same state, and the word is RB a | RB (a + 1) << 8, whichever blocks the bytes lie in (41_access.md R99). -/
def Obligations.RwAgreesWithTwoRb : Prop :=
  ∀ (s t : State) (addr : Addr), s.mode = .debug → s.fault = none → s.inTrap = false → addr.toNat < 0xFFFF →
    exec (.rw addr) s = .next t → t.fault = none →
      ∃ low high : Word,
        exec (.rb addr) s =
          .next { s with responses := s.responses ++ [{ recipient := .issuer, word := low }] } ∧
        exec (.rb (addr + 1#16)) s =
          .next { s with responses := s.responses ++ [{ recipient := .issuer, word := high }] } ∧
        t = { s with responses := s.responses ++ [{ recipient := .issuer, word := low ||| high <<< 8 }] }

/-- The byte round trip of 41_access.md R98: below 0xFFFC outright, from 0xFFFC on where the mapper's answer leaves the entry and the byte alone. -/
def Obligations.WriteThenReadRoundTrip : Prop :=
  ∀ (s : State) (addr : Addr) (v : Byte) (b : BlockId) (len : Nat), s.wf = true → s.fault = none →
    s.readMap[addr.toNat / 1024]? = some (.bound b) → s.writeMap[addr.toNat / 1024]? = some (.bound b) →
    s.lenOf b = some len → addr.toNat % 1024 < len →
      (addr.toNat < 0xFFFC → ∃ t, exec (.wb addr v) s = .next t ∧
        exec (.rb addr) t =
          .next { t with responses := t.responses ++ [{ recipient := .issuer, word := v.setWidth 32 }] }) ∧
      (0xFFFC ≤ addr.toNat → ∀ t, exec (.wb addr v) s = .next t → t.fault = none →
        t.readMap[addr.toNat / 1024]? = s.readMap[addr.toNat / 1024]? →
        t.readByte b (addr.toNat % 1024) = (s.blkSet b (addr.toNat % 1024) v).readByte b (addr.toNat % 1024) →
          exec (.rb addr) t =
            .next { t with responses := t.responses ++ [{ recipient := .issuer, word := v.setWidth 32 }] })

/-- The word round trip of 41_access.md R98, below the paging registers: a word written as two bytes, low first, in one page reads back with RW. -/
def Obligations.TwoWritesThenWordReadRoundTrip : Prop :=
  ∀ (s : State) (addr : Addr) (low high : Byte) (b : BlockId) (len : Nat), s.wf = true → s.fault = none →
    s.readMap[addr.toNat / 1024]? = some (.bound b) → s.writeMap[addr.toNat / 1024]? = some (.bound b) →
    s.lenOf b = some len → addr.toNat % 1024 ≠ 1023 → addr.toNat % 1024 + 1 < len → addr.toNat + 1 < 0xFFFC →
      ∃ t u, exec (.wb addr low) s = .next t ∧ exec (.wb (addr + 1#16) high) t = .next u ∧
        exec (.rw addr) u =
          .next { u with responses := u.responses ++ [{ recipient := .issuer, word := 0#16 ++ high ++ low }] }

/-- A store is seen at the same offset through every read entry that binds the same block, and through no other: aliasing (20_memory.md R58) and write protection by a divergent binding (10_state.md R24). -/
def Obligations.StoreIsSeenExactlyThroughAliases : Prop :=
  ∀ (s t : State) (addr addr' : Addr) (v old : Byte) (b b' : BlockId) (len : Nat), s.wf = true → s.fault = none →
    addr.toNat < 0xFFFC → s.writeMap[addr.toNat / 1024]? = some (.bound b) → s.lenOf b = some len →
    addr.toNat % 1024 < len → s.readMap[addr'.toNat / 1024]? = some (.bound b') →
    s.readByte b' (addr'.toNat % 1024) = some old → exec (.wb addr v) s = .next t →
      exec (.rb addr') t =
        .next { t with responses := t.responses ++ [{ recipient := .issuer, word := (if b' = b ∧ addr'.toNat % 1024 = addr.toNat % 1024 then v else old).setWidth 32 }] }

/-- An access that finds every byte it needs behaves the same in Debug and in Release (40_translation.md R86). -/
def Obligations.CoveredAccessIgnoresTheMode : Prop :=
  ∀ (s t : State) (i : Instr) (m : Mode),
    ((∃ a, i = .rb a) ∨ (∃ a, i = .rw a) ∨ (∃ a v, i = .wb a v ∧ a.toNat < 0xFFFC)) →
    s.accessCovered i = true → exec i s = .next t → exec i { s with mode := m } = .next { t with mode := m }

/-- What RB and RW answer depends on no byte at index 1024 or above: two arenas with the same lengths and the same bytes below 1024 give the same outcome (10_state.md R35, 41_access.md R96). -/
def Obligations.BytesAbove1023AreNeverRead : Prop :=
  ∀ (s t : State) (blocks : List Block) (i : Instr), ((∃ a, i = .rb a) ∨ (∃ a, i = .rw a)) →
    (∀ b : BlockId, ({ s with blocks := blocks } : State).lenOf b = s.lenOf b) →
    (∀ (b : BlockId) (j : Nat), j < 1024 → ({ s with blocks := blocks } : State).readByte b j = s.readByte b j) →
    exec i s = .next t → exec i { s with blocks := blocks } = .next { t with blocks := blocks }

/-- TRANS, RB, RW and RESOLVE may be repeated: in Debug mode, where one completes, the same command at once again completes and answers the same word (20_memory.md R47). -/
def Obligations.ReadsAreRepeatable : Prop :=
  ∀ (s t : State) (i : Instr),
    ((∃ a, i = .trans a) ∨ (∃ a, i = .rb a) ∨ (∃ a, i = .rw a) ∨ (∃ d p, i = .resolve d p)) →
    s.mode = .debug → s.fault = none → exec i s = .next t → t.fault = none →
      ∃ r : Response, t = { s with responses := s.responses ++ [r] } ∧
        exec i t = .next { s with responses := s.responses ++ [r, r] }

/-! ## Frames -/

/-- TRANS, RB, RW, RESOLVE and an illegal word change nothing but the response channel, the fault latch and the model's count of free values: no map entry, no byte, no notification, no mapper state (20_memory.md R47, 41_access.md R91). -/
def Obligations.ReadFrame : Prop :=
  ∀ (s t : State) (i : Instr),
    ((∃ a, i = .trans a) ∨ (∃ a, i = .rb a) ∨ (∃ a, i = .rw a) ∨ (∃ d p, i = .resolve d p) ∨ (∃ w, i = .illegal w)) →
    exec i s = .next t →
      t = { s with responses := t.responses, fault := t.fault, draws := t.draws } ∧
      (∀ (b : BlockId) (j : Nat), t.readByte b j = s.readByte b j)

/-- BIND changes the one entry and the fault latch; RESET the two maps and the fault latch. -/
def Obligations.BindAndResetFrame : Prop :=
  (∀ (s t : State) (page : Page) (blk : BlockId), exec (.bind .r page blk) s = .next t →
    t = { s with readMap := t.readMap, fault := t.fault } ∧ ∀ p, p ≠ page.toNat → t.readMap[p]? = s.readMap[p]?) ∧
  (∀ (s t : State) (page : Page) (blk : BlockId), exec (.bind .w page blk) s = .next t →
    t = { s with writeMap := t.writeMap, fault := t.fault } ∧ ∀ p, p ≠ page.toNat → t.writeMap[p]? = s.writeMap[p]?) ∧
  (∀ s t : State, exec .reset s = .next t →
    t = { s with readMap := t.readMap, writeMap := t.writeMap, fault := t.fault })

/-- WB below 0xFFFC changes, besides the fault latch, only the byte at its offset in the block its writeMap entry binds. -/
def Obligations.WbFrame : Prop :=
  ∀ (s t : State) (addr : Addr) (data : Byte), s.wf = true → addr.toNat < 0xFFFC → exec (.wb addr data) s = .next t →
    t = { s with blocks := t.blocks, fault := t.fault } ∧
    (∀ b : BlockId, t.lenOf b = s.lenOf b) ∧
    ∀ (b : BlockId) (j : Nat),
      ¬ (s.writeMap[addr.toNat / 1024]? = some (.bound b) ∧ j = addr.toNat % 1024) → t.readByte b j = s.readByte b j

/-- COPY changes, besides the fault latch and the model's count of free values, only bytes destPos .. destPos + length - 1 of destBlk. -/
def Obligations.CopyFrame : Prop :=
  ∀ (s t : State) (sb db : BlockId) (sp dp len : Position), s.wf = true → exec (.copy sb sp db dp len) s = .next t →
    t = { s with blocks := t.blocks, fault := t.fault, draws := t.draws } ∧
    (∀ b : BlockId, t.lenOf b = s.lenOf b) ∧
    ∀ (b : BlockId) (j : Nat), ¬ (b = db ∧ dp.toNat ≤ j ∧ j < dp.toNat + len.toNat) → t.readByte b j = s.readByte b j

/-- What a notification and the mapper's answer can change (42_trap.md R116): not MODE, not MAPPER, not the arena's blocks or lengths, not the request channel; exactly one entry is added to notifyLog; both maps are as before unless an answer MAPPER may give to it holds a BIND, and no byte of any block changes unless one holds a COPY. -/
def Obligations.NotificationFrame : Prop :=
  ∀ (s t : State) (k : RegIndex) (v : Byte), s.fault = none → exec (.notify k v) s = .next t →
    t.mode = s.mode ∧ t.mapper = s.mapper ∧ t.requests = s.requests ∧
    t.blocks.map Block.len = s.blocks.map Block.len ∧ t.notifyLog = s.notifyLog ++ [{ k := k, v := v }] ∧
    ((∀ a cs, s.MayAnswer k v a → decodeAll a.words = some cs → ∀ d page b, Command.instr (.bind d page b) ∉ cs) →
      t.readMap = s.readMap ∧ t.writeMap = s.writeMap) ∧
    ((∀ a cs, s.MayAnswer k v a → decodeAll a.words = some cs → ∀ sb sp db dp len, Command.instr (.copy sb sp db dp len) ∉ cs) →
      t.blocks = s.blocks)

/-! ## The paging notification -/

/-- Notify (42_trap.md R110): the log grows by (k, v), some member of MAPPER's set is taken, its commands run in order with inTrap true and the new mapper state, and inTrap is cleared unless one of them faulted. -/
def Obligations.NotifyRunsOneMapperAnswer : Prop :=
  ∀ (s : State) (k : RegIndex) (v : Byte), s.fault = none → (∀ a, s.MayAnswer k v a → wholeStream a.words = true) →
    ∃ a, s.MayAnswer k v a ∧ ∃ (cs : List Command) (n : Nat) (t : State),
      decodeAll a.words = some cs ∧
      t = runAnswer cs { s with notifyLog := s.notifyLog ++ [{ k := k, v := v }], mapperState := a.next, inTrap := true, draws := n } ∧
      exec (.notify k v) s = .next (if t.fault = none then { t with inTrap := false } else t)

/-- A notification whose every member of MAPPER's set is the empty list of commands with mapperState kept leaves only its log entry (42_trap.md R110), and the model's count of free values. -/
def Obligations.UnansweredNotificationOnlyLogs : Prop :=
  ∀ (s : State) (k : RegIndex) (v : Byte), s.fault = none → s.inTrap = false →
    (∀ a, s.MayAnswer k v a → a = { next := s.mapperState, words := [] }) →
      ∃ n, exec (.notify k v) s = .next { s with notifyLog := s.notifyLog ++ [{ k := k, v := v }], draws := n }

/-- A notification whose only member of MAPPER's set is one BIND of a block of the arena, with a new mapper state, rebinds that entry (42_trap.md R110, R111). -/
def Obligations.NotificationAnsweredByBindRebinds : Prop :=
  ∀ (s : State) (k : RegIndex) (v : Byte) (next : MapperState) (page : Page) (b : BlockId), s.fault = none →
    s.inTrap = false → (∀ a, s.MayAnswer k v a → a = { next := next, words := encode (.bind .r page b) }) →
    b.toNat < s.blocks.length →
      ∃ n, exec (.notify k v) s =
        .next { s with notifyLog := s.notifyLog ++ [{ k := k, v := v }], mapperState := next, draws := n, readMap := s.readMap.set page.toNat (.bound b) page.isLt }

/-- A command of the mapper's answer has the effect it has as a command of its own while inTrap is true. -/
def Obligations.NestedCommandIsTheCommand : Prop :=
  ∀ (s : State) (i : Instr) (op : Mnemonic) (w : Word), s.fault = none → s.inTrap = true →
    (i.wfRequest = true → exec i s = .next (runNested (.instr i) s)) ∧
    execReserved op w s = .next (runNested (.reserved op w) s)

/-- A fault inside the answer latches; the rest of the answer is not executed, inTrap stays true (42_trap.md R112). -/
def Obligations.FaultInsideTheAnswerStopsIt : Prop :=
  (∀ (cs : List Command) (c : Command) (s : State),
    runAnswer (cs ++ [c]) s =
      if (runAnswer cs s).fault = none then runNested c (runAnswer cs s) else runAnswer cs s) ∧
  (∀ (s t : State) (k : RegIndex) (v : Byte), s.fault = none → exec (.notify k v) s = .next t →
    (t.inTrap = true ↔ t.fault ≠ none))

/-- Reentrancy (42_trap.md R113): RB, WB, RW and RESET inside a notification raise ReentrantAccess in both modes before any effect; TRANS, RESOLVE, BIND and COPY never do; no command executed there issues a notification. Records without addr are the model's reading (log entry 13). -/
def Obligations.ReentrancyCheck : Prop :=
  ∀ (s : State), s.fault = none → s.inTrap = true →
    (∀ (addr : Addr) (data : Byte),
      exec (.rb addr) s = .next { s with fault := some { code := .reentrantAccess, op := .rb, word := firstWord (.rb addr) } } ∧
      exec (.wb addr data) s = .next { s with fault := some { code := .reentrantAccess, op := .wb, word := firstWord (.wb addr data) } } ∧
      exec (.rw addr) s = .next { s with fault := some { code := .reentrantAccess, op := .rw, word := firstWord (.rw addr) } } ∧
      exec .reset s = .next { s with fault := some { code := .reentrantAccess, op := .reset, word := firstWord .reset } }) ∧
    (∀ (i : Instr) (t : State) (r : FaultRecord), i.wfRequest = true → exec i s = .next t →
      t.notifyLog = s.notifyLog ∧
      (((∃ a, i = .trans a) ∨ (∃ d p, i = .resolve d p) ∨ (∃ d p b, i = .bind d p b) ∨
        (∃ sb sp db dp n, i = .copy sb sp db dp n)) → t.fault = some r → r.code ≠ .reentrantAccess))

/-- A WB to 0xFFFC + k notifies (k, v) exactly once, whatever writeMap binds, in Release mode or where its check passes in Debug mode; one whose check fails in Debug mode, and one below 0xFFFC, not at all (42_trap.md R114, R115). -/
def Obligations.WbNotifiesExactlyOnce : Prop :=
  ∀ (s t : State) (addr : Addr) (v : Byte), s.fault = none → s.inTrap = false → exec (.wb addr v) s = .next t →
    (addr.toNat < 0xFFFC → t.notifyLog = s.notifyLog) ∧
    (0xFFFC ≤ addr.toNat → (s.mode = .release ∨ s.accessCovered (.wb addr v) = true) →
      t.notifyLog = s.notifyLog ++ [{ k := BitVec.ofNat 2 (addr.toNat - 0xFFFC), v := v }]) ∧
    (s.mode = .debug → s.accessCovered (.wb addr v) = false → t.notifyLog = s.notifyLog ∧ t.fault ≠ none)

/-- The byte of a paging WB goes through the writeMap entry in force before the answer: whatever the answer rebinds, the byte lies in the old block (70_reset_and_hazards.md R175). Answers without COPY, which alone could overwrite it. -/
def Obligations.PagingWriteStoresBeforeTheAnswer : Prop :=
  ∀ (s t : State) (addr : Addr) (v : Byte) (b : BlockId) (len : Nat), s.wf = true → s.fault = none →
    0xFFFC ≤ addr.toNat → s.writeMap[63]? = some (.bound b) → s.lenOf b = some len → addr.toNat % 1024 < len →
    (∀ a cs, s.MayAnswer (BitVec.ofNat 2 (addr.toNat - 0xFFFC)) v a → decodeAll a.words = some cs →
      ∀ sb sp db dp n, Command.instr (.copy sb sp db dp n) ∉ cs) →
    exec (.wb addr v) s = .next t →
      ∀ (b' : BlockId) (j : Nat),
        t.readByte b' j = if b' = b ∧ j = addr.toNat % 1024 then some v else s.readByte b' j

/-! ## COPY, RESET, faults -/

/-- COPY's checks in their order, and length 0 (43_bulk_copy.md R120). -/
def Obligations.CopyChecks : Prop :=
  ∀ (s : State) (sb db : BlockId) (sp dp n : Position), s.fault = none →
    (s.blocks.length ≤ sb.toNat →
      exec (.copy sb sp db dp n) s =
        .next { s with fault := some { code := .invalidBlock, op := .copy, word := 0x6000#16 ++ sb, block := some sb } }) ∧
    (sb.toNat < s.blocks.length → s.blocks.length ≤ db.toNat →
      exec (.copy sb sp db dp n) s =
        .next { s with fault := some { code := .invalidBlock, op := .copy, word := 0x6000#16 ++ sb, block := some db } }) ∧
    (∀ ls ld, s.lenOf sb = some ls → s.lenOf db = some ld →
      (n = 0#32 → exec (.copy sb sp db dp n) s = .next s) ∧
      (n ≠ 0#32 → s.mode = .debug → (ls < sp.toNat + n.toNat ∨ ld < dp.toNat + n.toNat) →
        exec (.copy sb sp db dp n) s =
          .next { s with fault := some { code := .offsetOutOfRange, op := .copy, word := 0x6000#16 ++ sb, copy := some { srcBlk := sb, srcPos := sp, destBlk := db, destPos := dp, length := n } } }))

/-- COPY of non-overlapping ranges that fit gives the source's original bytes at the destination, draws nothing and faults not (43_bulk_copy.md R123). -/
def Obligations.CopyOfDisjointRanges : Prop :=
  ∀ (s : State) (sb db : BlockId) (sp dp n : Position) (ls ld : Nat), s.wf = true → s.fault = none →
    s.lenOf sb = some ls → s.lenOf db = some ld → sp.toNat + n.toNat ≤ ls → dp.toNat + n.toNat ≤ ld →
    (sb ≠ db ∨ sp.toNat + n.toNat ≤ dp.toNat ∨ dp.toNat + n.toNat ≤ sp.toNat) →
      ∃ t, exec (.copy sb sp db dp n) s = .next t ∧ t = { s with blocks := t.blocks } ∧
        ∀ (b : BlockId) (j : Nat),
          t.readByte b j =
            if b = db ∧ dp.toNat ≤ j ∧ j < dp.toNat + n.toNat then s.readByte sb (sp.toNat + (j - dp.toNat))
            else s.readByte b j

/-- Within one block and with destPos >= srcPos, COPY is the standard rightward memmove: every destination byte is the source's original one (43_bulk_copy.md R121). -/
def Obligations.CopyRightwardIsMemmove : Prop :=
  ∀ (s : State) (b : BlockId) (sp dp n : Position) (len : Nat), s.wf = true → s.fault = none →
    s.lenOf b = some len → sp.toNat ≤ dp.toNat → dp.toNat + n.toNat ≤ len →
      ∃ t, exec (.copy b sp b dp n) s = .next t ∧ t = { s with blocks := t.blocks } ∧
        ∀ i < n.toNat, t.readByte b (dp.toNat + i) = s.readByte b (sp.toNat + i)

/-- Within one block and with destPos < srcPos, COPY keeps the descending order: a destination byte is the byte an earlier step left at its source index where that index lies in the destination range, the original byte otherwise (43_bulk_copy.md R122). -/
def Obligations.CopyLeftwardKeepsDescendingOrder : Prop :=
  ∀ (s : State) (b : BlockId) (sp dp n : Position) (len : Nat), s.wf = true → s.fault = none →
    s.lenOf b = some len → dp.toNat < sp.toNat → sp.toNat + n.toNat ≤ len →
      ∃ t, exec (.copy b sp b dp n) s = .next t ∧ t = { s with blocks := t.blocks } ∧
        ∀ i < n.toNat,
          t.readByte b (dp.toNat + i) =
            if sp.toNat + i < dp.toNat + n.toNat then t.readByte b (sp.toNat + i) else s.readByte b (sp.toNat + i)

/-- In Release mode COPY of blocks of the arena, two or one, always completes, whatever the positions and the length (43_bulk_copy.md R120): an out-of-range destination index has no effect, an out-of-range source index gives some byte, and an index in range the source byte as it stands at its step, which is the byte an earlier step left where the source index lies in the destination range (R122), the original byte otherwise. -/
def Obligations.CopyReleaseOutOfRange : Prop :=
  ∀ (s : State) (sb db : BlockId) (sp dp n : Position) (ls ld : Nat), s.wf = true → s.fault = none →
    s.mode = .release → s.lenOf sb = some ls → s.lenOf db = some ld →
      ∃ t, exec (.copy sb sp db dp n) s = .next t ∧ t = { s with blocks := t.blocks, draws := t.draws } ∧
        ∀ i < n.toNat, ∃ x : Byte,
          t.readByte db (dp.toNat + i) =
            if ld ≤ dp.toNat + i then none
            else if ls ≤ sp.toNat + i then some x
            else if sb = db ∧ dp.toNat < sp.toNat ∧ sp.toNat + i < dp.toNat + n.toNat then t.readByte db (sp.toNat + i)
            else s.readByte sb (sp.toNat + i)

/-- RESET (44_session.md R130): all 128 entries Absent and nothing else; in Debug mode every access then faults; ReentrantAccess inside a notification; nothing once a fault is latched. -/
def Obligations.ResetClearsBothMaps : Prop :=
  ∀ s : State,
    (s.fault = none → s.inTrap = false →
      exec .reset s = .next { s with readMap := Vector.replicate 64 .absent, writeMap := Vector.replicate 64 .absent } ∧
      (s.mode = .debug → ∀ t, exec .reset s = .next t → ∀ (addr : Addr) (data : Byte),
        ∀ i ∈ [Instr.rb addr, Instr.rw addr, Instr.wb addr data],
          ∃ u r, exec i t = .next u ∧ u.fault = some r ∧ r.code = .unmappedPage)) ∧
    (s.fault = none → s.inTrap = true →
      exec .reset s = .next { s with fault := some { code := .reentrantAccess, op := .reset, word := 0x70000000#32 } }) ∧
    (s.fault ≠ none → exec .reset s = .next s)

/-- A faulting command other than a WB or a notification has no effect besides its fault, and its record names it and its first word (60_exceptions.md R141, R142). -/
def Obligations.FaultingCommandOnlyLatches : Prop :=
  ∀ (s t : State) (i : Instr) (r : FaultRecord),
    (∀ a v, i ≠ .wb a v) → (∀ k v, i ≠ .notify k v) → s.fault = none → exec i s = .next t → t.fault = some r →
      t = { s with fault := some r } ∧ r.word = firstWord i

/-- In Release mode neither UnmappedPage nor OffsetOutOfRange is ever raised, by any command or by a command of a mapper's answer (60_exceptions.md R146). -/
def Obligations.ReleaseRaisesNoAddressingFault : Prop :=
  ∀ (s t : State) (r : FaultRecord), s.mode = .release → s.fault = none → step s = .next t → t.fault = some r →
    r.code ≠ .unmappedPage ∧ r.code ≠ .offsetOutOfRange
end

