-- ==== Sys2Proof/Laws/State.lean ====
section
/-! SUPPORT. What each update of the state does to each field, so that no proof unfolds a record update. -/

namespace Sys2Proof.Machine

/-! `State.respond`. -/

@[simp] theorem State.respond_mode (s : State) (w : Word) : (s.respond w).mode = s.mode := rfl
@[simp] theorem State.respond_mapper (s : State) (w : Word) : (s.respond w).mapper = s.mapper := rfl
@[simp] theorem State.respond_blocks (s : State) (w : Word) : (s.respond w).blocks = s.blocks := rfl
@[simp] theorem State.respond_readMap (s : State) (w : Word) : (s.respond w).readMap = s.readMap := rfl
@[simp] theorem State.respond_writeMap (s : State) (w : Word) : (s.respond w).writeMap = s.writeMap := rfl
@[simp] theorem State.respond_fault (s : State) (w : Word) : (s.respond w).fault = s.fault := rfl
@[simp] theorem State.respond_inTrap (s : State) (w : Word) : (s.respond w).inTrap = s.inTrap := rfl
@[simp] theorem State.respond_notifyLog (s : State) (w : Word) : (s.respond w).notifyLog = s.notifyLog := rfl
@[simp] theorem State.respond_mapperState (s : State) (w : Word) : (s.respond w).mapperState = s.mapperState := rfl
@[simp] theorem State.respond_requests (s : State) (w : Word) : (s.respond w).requests = s.requests := rfl
@[simp] theorem State.respond_responses (s : State) (w : Word) : (s.respond w).responses = s.responses ++ [{ recipient := s.recipient, word := w }] := rfl
@[simp] theorem State.respond_draws (s : State) (w : Word) : (s.respond w).draws = s.draws := rfl

/-! `State.respondFreeByte`. -/

@[simp] theorem State.respondFreeByte_mode (s : State) : (s.respondFreeByte).mode = s.mode := rfl
@[simp] theorem State.respondFreeByte_mapper (s : State) : (s.respondFreeByte).mapper = s.mapper := rfl
@[simp] theorem State.respondFreeByte_blocks (s : State) : (s.respondFreeByte).blocks = s.blocks := rfl
@[simp] theorem State.respondFreeByte_readMap (s : State) : (s.respondFreeByte).readMap = s.readMap := rfl
@[simp] theorem State.respondFreeByte_writeMap (s : State) : (s.respondFreeByte).writeMap = s.writeMap := rfl
@[simp] theorem State.respondFreeByte_fault (s : State) : (s.respondFreeByte).fault = s.fault := rfl
@[simp] theorem State.respondFreeByte_inTrap (s : State) : (s.respondFreeByte).inTrap = s.inTrap := rfl
@[simp] theorem State.respondFreeByte_notifyLog (s : State) : (s.respondFreeByte).notifyLog = s.notifyLog := rfl
@[simp] theorem State.respondFreeByte_mapperState (s : State) : (s.respondFreeByte).mapperState = s.mapperState := rfl
@[simp] theorem State.respondFreeByte_requests (s : State) : (s.respondFreeByte).requests = s.requests := rfl
@[simp] theorem State.respondFreeByte_responses (s : State) : (s.respondFreeByte).responses = s.responses ++ [{ recipient := s.recipient, word := (Config.freeByte s.draws).setWidth 32 }] := rfl
@[simp] theorem State.respondFreeByte_draws (s : State) : (s.respondFreeByte).draws = s.draws + 1 := rfl

/-! `State.respondFreeHalf`. -/

@[simp] theorem State.respondFreeHalf_mode (s : State) : (s.respondFreeHalf).mode = s.mode := rfl
@[simp] theorem State.respondFreeHalf_mapper (s : State) : (s.respondFreeHalf).mapper = s.mapper := rfl
@[simp] theorem State.respondFreeHalf_blocks (s : State) : (s.respondFreeHalf).blocks = s.blocks := rfl
@[simp] theorem State.respondFreeHalf_readMap (s : State) : (s.respondFreeHalf).readMap = s.readMap := rfl
@[simp] theorem State.respondFreeHalf_writeMap (s : State) : (s.respondFreeHalf).writeMap = s.writeMap := rfl
@[simp] theorem State.respondFreeHalf_fault (s : State) : (s.respondFreeHalf).fault = s.fault := rfl
@[simp] theorem State.respondFreeHalf_inTrap (s : State) : (s.respondFreeHalf).inTrap = s.inTrap := rfl
@[simp] theorem State.respondFreeHalf_notifyLog (s : State) : (s.respondFreeHalf).notifyLog = s.notifyLog := rfl
@[simp] theorem State.respondFreeHalf_mapperState (s : State) : (s.respondFreeHalf).mapperState = s.mapperState := rfl
@[simp] theorem State.respondFreeHalf_requests (s : State) : (s.respondFreeHalf).requests = s.requests := rfl
@[simp] theorem State.respondFreeHalf_responses (s : State) : (s.respondFreeHalf).responses = s.responses ++ [{ recipient := s.recipient, word := (Config.freeHalf s.draws).setWidth 32 }] := rfl
@[simp] theorem State.respondFreeHalf_draws (s : State) : (s.respondFreeHalf).draws = s.draws + 1 := rfl

/-! `State.raise`. -/

@[simp] theorem State.raise_mode (s : State) (r : FaultRecord) : (s.raise r).mode = s.mode := rfl
@[simp] theorem State.raise_mapper (s : State) (r : FaultRecord) : (s.raise r).mapper = s.mapper := rfl
@[simp] theorem State.raise_blocks (s : State) (r : FaultRecord) : (s.raise r).blocks = s.blocks := rfl
@[simp] theorem State.raise_readMap (s : State) (r : FaultRecord) : (s.raise r).readMap = s.readMap := rfl
@[simp] theorem State.raise_writeMap (s : State) (r : FaultRecord) : (s.raise r).writeMap = s.writeMap := rfl
@[simp] theorem State.raise_fault (s : State) (r : FaultRecord) : (s.raise r).fault = some r := rfl
@[simp] theorem State.raise_inTrap (s : State) (r : FaultRecord) : (s.raise r).inTrap = s.inTrap := rfl
@[simp] theorem State.raise_notifyLog (s : State) (r : FaultRecord) : (s.raise r).notifyLog = s.notifyLog := rfl
@[simp] theorem State.raise_mapperState (s : State) (r : FaultRecord) : (s.raise r).mapperState = s.mapperState := rfl
@[simp] theorem State.raise_requests (s : State) (r : FaultRecord) : (s.raise r).requests = s.requests := rfl
@[simp] theorem State.raise_responses (s : State) (r : FaultRecord) : (s.raise r).responses = s.responses := rfl
@[simp] theorem State.raise_draws (s : State) (r : FaultRecord) : (s.raise r).draws = s.draws := rfl

/-! `State.blkSet`. -/

@[simp] theorem State.blkSet_mode (s : State) (b : BlockId) (i : Nat) (v : Byte) : (s.blkSet b i v).mode = s.mode := rfl
@[simp] theorem State.blkSet_mapper (s : State) (b : BlockId) (i : Nat) (v : Byte) : (s.blkSet b i v).mapper = s.mapper := rfl
@[simp] theorem State.blkSet_blocks (s : State) (b : BlockId) (i : Nat) (v : Byte) : (s.blkSet b i v).blocks = s.blocks.modify b.toNat fun blk => blk.write i v := rfl
@[simp] theorem State.blkSet_readMap (s : State) (b : BlockId) (i : Nat) (v : Byte) : (s.blkSet b i v).readMap = s.readMap := rfl
@[simp] theorem State.blkSet_writeMap (s : State) (b : BlockId) (i : Nat) (v : Byte) : (s.blkSet b i v).writeMap = s.writeMap := rfl
@[simp] theorem State.blkSet_fault (s : State) (b : BlockId) (i : Nat) (v : Byte) : (s.blkSet b i v).fault = s.fault := rfl
@[simp] theorem State.blkSet_inTrap (s : State) (b : BlockId) (i : Nat) (v : Byte) : (s.blkSet b i v).inTrap = s.inTrap := rfl
@[simp] theorem State.blkSet_notifyLog (s : State) (b : BlockId) (i : Nat) (v : Byte) : (s.blkSet b i v).notifyLog = s.notifyLog := rfl
@[simp] theorem State.blkSet_mapperState (s : State) (b : BlockId) (i : Nat) (v : Byte) : (s.blkSet b i v).mapperState = s.mapperState := rfl
@[simp] theorem State.blkSet_requests (s : State) (b : BlockId) (i : Nat) (v : Byte) : (s.blkSet b i v).requests = s.requests := rfl
@[simp] theorem State.blkSet_responses (s : State) (b : BlockId) (i : Nat) (v : Byte) : (s.blkSet b i v).responses = s.responses := rfl
@[simp] theorem State.blkSet_draws (s : State) (b : BlockId) (i : Nat) (v : Byte) : (s.blkSet b i v).draws = s.draws := rfl

/-! `State.enterTrap`. -/

@[simp] theorem State.enterTrap_mode (s : State) : (s.enterTrap).mode = s.mode := rfl
@[simp] theorem State.enterTrap_mapper (s : State) : (s.enterTrap).mapper = s.mapper := rfl
@[simp] theorem State.enterTrap_blocks (s : State) : (s.enterTrap).blocks = s.blocks := rfl
@[simp] theorem State.enterTrap_readMap (s : State) : (s.enterTrap).readMap = s.readMap := rfl
@[simp] theorem State.enterTrap_writeMap (s : State) : (s.enterTrap).writeMap = s.writeMap := rfl
@[simp] theorem State.enterTrap_fault (s : State) : (s.enterTrap).fault = s.fault := rfl
@[simp] theorem State.enterTrap_inTrap (s : State) : (s.enterTrap).inTrap = true := rfl
@[simp] theorem State.enterTrap_notifyLog (s : State) : (s.enterTrap).notifyLog = s.notifyLog := rfl
@[simp] theorem State.enterTrap_mapperState (s : State) : (s.enterTrap).mapperState = s.mapperState := rfl
@[simp] theorem State.enterTrap_requests (s : State) : (s.enterTrap).requests = s.requests := rfl
@[simp] theorem State.enterTrap_responses (s : State) : (s.enterTrap).responses = s.responses := rfl
@[simp] theorem State.enterTrap_draws (s : State) : (s.enterTrap).draws = s.draws := rfl

/-! `clearMaps`. -/

@[simp] theorem clearMaps_mode (s : State) : (clearMaps s).mode = s.mode := rfl
@[simp] theorem clearMaps_mapper (s : State) : (clearMaps s).mapper = s.mapper := rfl
@[simp] theorem clearMaps_blocks (s : State) : (clearMaps s).blocks = s.blocks := rfl
@[simp] theorem clearMaps_readMap (s : State) : (clearMaps s).readMap = PageMap.allAbsent := rfl
@[simp] theorem clearMaps_writeMap (s : State) : (clearMaps s).writeMap = PageMap.allAbsent := rfl
@[simp] theorem clearMaps_fault (s : State) : (clearMaps s).fault = s.fault := rfl
@[simp] theorem clearMaps_inTrap (s : State) : (clearMaps s).inTrap = s.inTrap := rfl
@[simp] theorem clearMaps_notifyLog (s : State) : (clearMaps s).notifyLog = s.notifyLog := rfl
@[simp] theorem clearMaps_mapperState (s : State) : (clearMaps s).mapperState = s.mapperState := rfl
@[simp] theorem clearMaps_requests (s : State) : (clearMaps s).requests = s.requests := rfl
@[simp] theorem clearMaps_responses (s : State) : (clearMaps s).responses = s.responses := rfl
@[simp] theorem clearMaps_draws (s : State) : (clearMaps s).draws = s.draws := rfl

/-! `State.setEntry`. -/

@[simp] theorem State.setEntry_mode (s : State) (d : Dir) (p : Page) (e : Entry) : (s.setEntry d p e).mode = s.mode := by cases d <;> rfl
@[simp] theorem State.setEntry_mapper (s : State) (d : Dir) (p : Page) (e : Entry) : (s.setEntry d p e).mapper = s.mapper := by cases d <;> rfl
@[simp] theorem State.setEntry_blocks (s : State) (d : Dir) (p : Page) (e : Entry) : (s.setEntry d p e).blocks = s.blocks := by cases d <;> rfl
@[simp] theorem State.setEntry_fault (s : State) (d : Dir) (p : Page) (e : Entry) : (s.setEntry d p e).fault = s.fault := by cases d <;> rfl
@[simp] theorem State.setEntry_inTrap (s : State) (d : Dir) (p : Page) (e : Entry) : (s.setEntry d p e).inTrap = s.inTrap := by cases d <;> rfl
@[simp] theorem State.setEntry_notifyLog (s : State) (d : Dir) (p : Page) (e : Entry) : (s.setEntry d p e).notifyLog = s.notifyLog := by cases d <;> rfl
@[simp] theorem State.setEntry_mapperState (s : State) (d : Dir) (p : Page) (e : Entry) : (s.setEntry d p e).mapperState = s.mapperState := by cases d <;> rfl
@[simp] theorem State.setEntry_requests (s : State) (d : Dir) (p : Page) (e : Entry) : (s.setEntry d p e).requests = s.requests := by cases d <;> rfl
@[simp] theorem State.setEntry_responses (s : State) (d : Dir) (p : Page) (e : Entry) : (s.setEntry d p e).responses = s.responses := by cases d <;> rfl
@[simp] theorem State.setEntry_draws (s : State) (d : Dir) (p : Page) (e : Entry) : (s.setEntry d p e).draws = s.draws := by cases d <;> rfl

theorem State.setEntry_r (s : State) (p : Page) (e : Entry) :
    s.setEntry .r p e = { s with readMap := s.readMap.set p.toNat e p.isLt } := rfl

theorem State.setEntry_w (s : State) (p : Page) (e : Entry) :
    s.setEntry .w p e = { s with writeMap := s.writeMap.set p.toNat e p.isLt } := rfl

/-! `State.leaveTrap`. -/

@[simp] theorem State.leaveTrap_mode (s : State) : s.leaveTrap.mode = s.mode := by unfold State.leaveTrap; split <;> rfl
@[simp] theorem State.leaveTrap_mapper (s : State) : s.leaveTrap.mapper = s.mapper := by unfold State.leaveTrap; split <;> rfl
@[simp] theorem State.leaveTrap_blocks (s : State) : s.leaveTrap.blocks = s.blocks := by unfold State.leaveTrap; split <;> rfl
@[simp] theorem State.leaveTrap_readMap (s : State) : s.leaveTrap.readMap = s.readMap := by unfold State.leaveTrap; split <;> rfl
@[simp] theorem State.leaveTrap_writeMap (s : State) : s.leaveTrap.writeMap = s.writeMap := by unfold State.leaveTrap; split <;> rfl
@[simp] theorem State.leaveTrap_fault (s : State) : s.leaveTrap.fault = s.fault := by unfold State.leaveTrap; split <;> rfl
@[simp] theorem State.leaveTrap_notifyLog (s : State) : s.leaveTrap.notifyLog = s.notifyLog := by unfold State.leaveTrap; split <;> rfl
@[simp] theorem State.leaveTrap_mapperState (s : State) : s.leaveTrap.mapperState = s.mapperState := by unfold State.leaveTrap; split <;> rfl
@[simp] theorem State.leaveTrap_requests (s : State) : s.leaveTrap.requests = s.requests := by unfold State.leaveTrap; split <;> rfl
@[simp] theorem State.leaveTrap_responses (s : State) : s.leaveTrap.responses = s.responses := by unfold State.leaveTrap; split <;> rfl
@[simp] theorem State.leaveTrap_draws (s : State) : s.leaveTrap.draws = s.draws := by unfold State.leaveTrap; split <;> rfl

/-- Return clears inTrap unless a fault is latched. -/
@[simp] theorem State.leaveTrap_inTrap (s : State) : s.leaveTrap.inTrap = (s.latched && s.inTrap) := by
  unfold State.leaveTrap; cases h : s.latched <;> simp

/-! The status bits. -/

theorem State.latched_iff (s : State) : s.latched = true ↔ s.fault ≠ none := by
  simp [State.latched, Option.isSome_iff_ne_none]

theorem State.not_latched_iff (s : State) : s.latched = false ↔ s.fault = none := by
  simp [State.latched]

theorem State.isDebug_iff (s : State) : s.isDebug = true ↔ s.mode = .debug := by simp [State.isDebug]

theorem State.not_isDebug_iff (s : State) : s.isDebug = false ↔ s.mode = .release := by
  cases h : s.mode <;> simp [State.isDebug, h]

/-- Nothing of a command happens once a fault is latched. -/
theorem State.unlessLatched_of_latched {s : State} (h : s.latched = true) (body : Host.Outcome State Fault Refusal) :
    s.unlessLatched body = .next s := by simp [State.unlessLatched, h]

theorem State.unlessLatched_of_none {s : State} (h : s.fault = none) (body : Host.Outcome State Fault Refusal) :
    s.unlessLatched body = body := by simp [State.unlessLatched, State.latched, h]

theorem State.unlessInTrap_of_true {s : State} (h : s.inTrap = true) (op : Mnemonic) (w : Word)
    (body : Host.Outcome State Fault Refusal) :
    s.unlessInTrap op w body = .next (s.raise (reentrantRecord op w)) := by simp [State.unlessInTrap, h]

theorem State.unlessInTrap_of_false {s : State} (h : s.inTrap = false) (op : Mnemonic) (w : Word)
    (body : Host.Outcome State Fault Refusal) : s.unlessInTrap op w body = body := by simp [State.unlessInTrap, h]

theorem State.recipient_of_false {s : State} (h : s.inTrap = false) : s.recipient = .issuer := by
  simp [State.recipient, h]

end Sys2Proof.Machine
end

