-- ==== Sys2Proof/Laws/Memory.lean ====
section
/-! SUPPORT. A block's bytes: reading after a write, and the canonical form that every write keeps. -/

namespace Sys2Proof.Machine

/-- A canonical memory lists nothing below its first index. -/
theorem Memory.read_below {len lo i : Nat} {m : Memory} (h : Memory.wfFrom len lo m = true) (hi : i < lo) :
    Memory.read m i = unlistedByte := by
  induction m generalizing lo with
  | nil => rfl
  | cons c rest ih =>
    obtain ⟨j, v⟩ := c
    simp only [Memory.wfFrom, Bool.and_eq_true, decide_eq_true_eq] at h
    have hj : j ≠ i := by omega
    simp [Memory.read, hj, ih h.2 (by omega)]

/-- A write keeps the canonical form. -/
theorem Memory.write_wfFrom {len lo i : Nat} {v : Byte} {m : Memory} (h : Memory.wfFrom len lo m = true)
    (hlo : lo ≤ i) (hi : i < len) : Memory.wfFrom len lo (Memory.write m i v) = true := by
  induction m generalizing lo with
  | nil => by_cases hv : v = unlistedByte <;> simp [Memory.write, Memory.wfFrom, hv, hlo, hi]
  | cons c rest ih =>
    obtain ⟨j, x⟩ := c
    have h' := h
    simp only [Memory.wfFrom, Bool.and_eq_true, decide_eq_true_eq] at h
    have weaken : Memory.wfFrom len lo rest = true := by
      cases rest with
      | nil => rfl
      | cons d more =>
        obtain ⟨k, y⟩ := d
        have := h.2
        simp only [Memory.wfFrom, Bool.and_eq_true, decide_eq_true_eq] at this ⊢
        exact ⟨⟨⟨by omega, this.1.1.2⟩, this.1.2⟩, this.2⟩
    simp only [Memory.write]
    split
    · by_cases hv : v = unlistedByte
      · simpa [hv] using h'
      · simp only [hv, if_false, Memory.wfFrom, Bool.and_eq_true, decide_eq_true_eq]
        exact ⟨⟨⟨hlo, hi⟩, hv⟩, ⟨⟨by omega, h.1.1.2⟩, h.1.2⟩, h.2⟩
    · split
      · subst j
        by_cases hv : v = unlistedByte
        · simpa [hv] using weaken
        · simp only [hv, if_false, Memory.wfFrom, Bool.and_eq_true, decide_eq_true_eq]
          exact ⟨⟨⟨hlo, hi⟩, hv⟩, h.2⟩
      · simp only [Memory.wfFrom, Bool.and_eq_true, decide_eq_true_eq]
        exact ⟨⟨⟨h.1.1.1, h.1.1.2⟩, h.1.2⟩, ih h.2 (by omega)⟩

/-- A write is read back at its index and leaves every other index alone. -/
theorem Memory.read_write {len lo i : Nat} {v : Byte} {m : Memory} (h : Memory.wfFrom len lo m = true) (k : Nat) :
    Memory.read (Memory.write m i v) k = if k = i then v else Memory.read m k := by
  induction m generalizing lo with
  | nil =>
    by_cases hv : v = unlistedByte <;> by_cases hk : k = i <;>
      simp [Memory.write, Memory.read, hv, hk, Ne.symm]
  | cons c rest ih =>
    obtain ⟨j, x⟩ := c
    have h' := h
    simp only [Memory.wfFrom, Bool.and_eq_true, decide_eq_true_eq] at h
    simp only [Memory.write]
    split
    · by_cases hv : v = unlistedByte
      · have hb : Memory.read ((j, x) :: rest) i = unlistedByte := by
          have : Memory.wfFrom len (i + 1) ((j, x) :: rest) = true := by
            simp only [Memory.wfFrom, Bool.and_eq_true, decide_eq_true_eq]
            exact ⟨⟨⟨by omega, h.1.1.2⟩, h.1.2⟩, h.2⟩
          exact Memory.read_below this (by omega)
        by_cases hk : k = i
        · simp [hv, hk, hb]
        · simp [hv, hk]
      · by_cases hk : k = i
        · simp [hv, hk, Memory.read]
        · have : ¬ i = k := fun e => hk e.symm
          simp [hv, hk, Memory.read, this]
    · split
      · subst j
        by_cases hk : k = i
        · subst k
          by_cases hv : v = unlistedByte
          · simp [hv, Memory.read_below h.2 (Nat.lt_succ_self i)]
          · simp [hv, Memory.read]
        · have : ¬ i = k := fun e => hk e.symm
          by_cases hv : v = unlistedByte <;> simp [hv, hk, Memory.read, this]
      · rename_i hlt hne
        by_cases hj : j = k
        · have : ¬ k = i := by omega
          simp [Memory.read, hj, this]
        · simp [Memory.read, hj, ih h.2]

/-- A block keeps its length and its canonical form under a write below its length. -/
theorem Block.write_wf {b : Block} {i : Nat} {v : Byte} (h : b.wf = true) (hi : i < b.len) :
    (b.write i v).wf = true := Memory.write_wfFrom h (Nat.zero_le i) hi

@[simp] theorem Block.write_len (b : Block) (i : Nat) (v : Byte) : (b.write i v).len = b.len := rfl

end Sys2Proof.Machine
end

