-- ==== Sys2Proof/Laws/Operands.lean ====
section
/-! SUPPORT. What the operand forms compute, in plain arithmetic. -/

namespace Sys2Proof.Machine

theorem toNat_widen (a : Addr) : (widen a).toNat = a.toNat := by
  have := a.isLt
  simp only [widen, BitVec.toNat_setWidth]; omega

theorem toNat_highByteAddr (a : Addr) : (highByteAddr a).toNat = a.toNat + 1 := by
  have := a.isLt
  simp only [highByteAddr, BitVec.toNat_add, toNat_widen, BitVec.toNat_ofNat]; omega

theorem pageOf_eq (a : Addr17) : pageOf a = a.toNat / 1024 := by
  simp [pageOf, Config.pageShift, BitVec.toNat_ushiftRight, Nat.shiftRight_eq_div_pow]

theorem offsetOf_eq (a : Addr17) : offsetOf a = a.toNat % 1024 := by
  have h : (a.toNat &&& (2 ^ 10 - 1)) = a.toNat % 2 ^ 10 := Nat.and_two_pow_sub_one_eq_mod _ 10
  simpa [offsetOf, Config.offsetMask, BitVec.toNat_and] using h

@[simp] theorem pageOf_widen (a : Addr) : pageOf (widen a) = a.toNat / 1024 := by rw [pageOf_eq, toNat_widen]

@[simp] theorem offsetOf_widen (a : Addr) : offsetOf (widen a) = a.toNat % 1024 := by rw [offsetOf_eq, toNat_widen]

/-- The high byte's page and offset, before the split path is chosen (41_access.md R93). -/
theorem pageOf_highByteAddr (a : Addr) : pageOf (highByteAddr a) = (a.toNat + 1) / 1024 := by
  rw [pageOf_eq, toNat_highByteAddr]

theorem offsetOf_highByteAddr (a : Addr) : offsetOf (highByteAddr a) = (a.toNat + 1) % 1024 := by
  rw [offsetOf_eq, toNat_highByteAddr]

/-- On the split path the high byte lies at offset 0 of the next page (41_access.md R93). -/
theorem split_highByte {a : Addr} (h : a.toNat % 1024 = 1023) :
    pageOf (highByteAddr a) = a.toNat / 1024 + 1 ∧ offsetOf (highByteAddr a) = 0 := by
  rw [pageOf_highByteAddr, offsetOf_highByteAddr]; omega

theorem isPagingAddr_iff (a : Addr) : isPagingAddr a = true ↔ 0xFFFC ≤ a.toNat := by
  simp [isPagingAddr, Config.trapBase, BitVec.ule]

theorem isPagingAddr_false_iff (a : Addr) : isPagingAddr a = false ↔ a.toNat < 0xFFFC := by
  rw [← Bool.not_eq_true, isPagingAddr_iff]; omega

/-- `address & 3` is `address - 0xFFFC` on the paging registers (42_trap.md R110). -/
theorem pagingIndex_eq {a : Addr} (h : 0xFFFC ≤ a.toNat) : pagingIndex a = BitVec.ofNat 2 (a.toNat - 0xFFFC) := by
  have hl := a.isLt
  have h3 : (a.toNat &&& (2 ^ 2 - 1)) = a.toNat % 2 ^ 2 := Nat.and_two_pow_sub_one_eq_mod _ 2
  apply BitVec.eq_of_toNat_eq
  simp only [pagingIndex, BitVec.toNat_setWidth, BitVec.toNat_and, BitVec.toNat_ofNat]
  norm_num at h3 ⊢
  omega

/-- An entry of a map where the page is one of the 64. -/
theorem State.entry_of_some {s : State} {d : Dir} {p : Nat} {e : Entry} (h : (s.mapOf d)[p]? = some e) :
    s.entry d p = e := by simp [State.entry, h]

theorem State.entry_of_none {s : State} {d : Dir} {p : Nat} (h : (s.mapOf d)[p]? = none) :
    s.entry d p = .absent := by simp [State.entry, h]

/-- A bound entry stands in the map. -/
theorem State.entry_eq_bound {s : State} {d : Dir} {p : Nat} {b : BlockId} :
    s.entry d p = .bound b ↔ (s.mapOf d)[p]? = some (.bound b) := by
  unfold State.entry
  cases h : (s.mapOf d)[p]? <;> simp

/-- Every page of an address has an entry. -/
theorem getElem?_map_isSome (m : PageMap) {p : Nat} (h : p < 64) : ∃ e, m[p]? = some e :=
  ⟨m[p], by simp [h]⟩

theorem State.mapOf_r (s : State) : s.mapOf .r = s.readMap := rfl

theorem State.mapOf_w (s : State) : s.mapOf .w = s.writeMap := rfl

/-- `Map(d)[p] <- e` read back (40_translation.md R83). -/
theorem State.mapOf_setEntry (s : State) (d d' : Dir) (p : Page) (e : Entry) (q : Nat) :
    ((s.setEntry d p e).mapOf d')[q]? = if d' = d ∧ q = p.toNat then some e else (s.mapOf d')[q]? := by
  have hp := p.isLt
  cases d <;> cases d' <;> simp [State.setEntry, State.mapOf, Vector.getElem?_set, eq_comm]

/-- A page map stays legal under an update with a legal entry. -/
theorem PageMap.wf_set {n : Nat} {m : PageMap} {e : Entry} (h : PageMap.wf n m = true) (he : e.wf n = true) (p : Page) :
    PageMap.wf n (m.set p.toNat e p.isLt) = true := by
  unfold PageMap.wf at h ⊢
  rw [List.all_eq_true] at h ⊢
  intro x hx
  have hx' : x ∈ m.set p.toNat e p.isLt := by simpa using hx
  rcases Vector.mem_or_eq_of_mem_set hx' with h1 | h1
  · exact h x (by simpa using h1)
  · exact h1 ▸ he

theorem PageMap.wf_allAbsent (n : Nat) : PageMap.wf n PageMap.allAbsent = true := by
  unfold PageMap.wf PageMap.allAbsent
  rw [List.all_eq_true]
  intro x hx
  have : x = Entry.absent := by simpa using hx
  simp [this, Entry.wf]

/-- A bound entry of a legal map names a block. -/
theorem PageMap.wf_bound {n p : Nat} {m : PageMap} {b : BlockId} (h : PageMap.wf n m = true)
    (hb : m[p]? = some (.bound b)) : b.toNat < n := by
  unfold PageMap.wf at h
  rw [List.all_eq_true] at h
  have hmem : Entry.bound b ∈ m.toList := by
    have := Vector.mem_of_getElem? hb
    simpa using this
  simpa [Entry.wf] using h _ hmem

end Sys2Proof.Machine
end

