-- ==== Sys2Proof/Laws/Ops.lean ====
section
/-! SUPPORT. What each shared operation over blocks does, and everything lookup-and-check can answer. -/

namespace Sys2Proof.Machine

/-- A readable byte lies below its block's length. -/
theorem State.readByte_eq_some {s : State} {b : BlockId} {i : Nat} {v : Byte} :
    s.readByte b i = some v ↔ ∃ blk, s.blocks[b.toNat]? = some blk ∧ i < blk.len ∧ Memory.read blk.mem i = v := by
  unfold State.readByte
  cases h : s.blocks[b.toNat]? with
  | none => simp
  | some blk => by_cases hi : i < blk.len <;> simp [hi]

theorem State.lenOf_eq_some {s : State} {b : BlockId} {n : Nat} :
    s.lenOf b = some n ↔ ∃ blk, s.blocks[b.toNat]? = some blk ∧ blk.len = n := by
  simp [State.lenOf]

/-- A byte is readable exactly below the block's length (00_scope.md R14). -/
theorem State.readByte_isSome_iff {s : State} {b : BlockId} {i : Nat} :
    (∃ v, s.readByte b i = some v) ↔ ∃ n, s.lenOf b = some n ∧ i < n := by
  simp only [State.readByte_eq_some, State.lenOf_eq_some]
  constructor
  · rintro ⟨v, blk, hb, hi, -⟩; exact ⟨_, ⟨blk, hb, rfl⟩, hi⟩
  · rintro ⟨n, ⟨blk, hb, rfl⟩, hi⟩; exact ⟨_, blk, hb, hi, rfl⟩

theorem State.readByte_eq_none {s : State} {b : BlockId} {i n : Nat} (h : s.lenOf b = some n) (hi : n ≤ i) :
    s.readByte b i = none := by
  obtain ⟨blk, hb, rfl⟩ := State.lenOf_eq_some.mp h
  simp [State.readByte, hb, Nat.not_lt.mpr hi]

theorem State.blkGet_of_readByte {s : State} {b : BlockId} {i : Nat} {v : Byte} (h : s.readByte b i = some v) :
    s.blkGet b i = v := by simp [State.blkGet, h]

theorem State.readByte_blkGet {s : State} {b : BlockId} {i n : Nat} (h : s.lenOf b = some n) (hi : i < n) :
    s.readByte b i = some (s.blkGet b i) := by
  obtain ⟨v, hv⟩ := State.readByte_isSome_iff.mpr ⟨n, h, hi⟩
  rw [hv, State.blkGet_of_readByte hv]

theorem State.hasBlock_iff {s : State} {b : BlockId} : s.hasBlock b = true ↔ b.toNat < s.blocks.length := by
  simp [State.hasBlock]

theorem State.hasBlock_iff_lenOf {s : State} {b : BlockId} : s.hasBlock b = true ↔ ∃ n, s.lenOf b = some n := by
  rw [State.hasBlock_iff]
  constructor
  · intro h; exact ⟨_, State.lenOf_eq_some.mpr ⟨_, List.getElem?_eq_getElem h, rfl⟩⟩
  · rintro ⟨n, hn⟩
    obtain ⟨blk, hb, -⟩ := State.lenOf_eq_some.mp hn
    exact (List.getElem?_eq_some_iff.mp hb).1

/-- Two states with the same arena read the same bytes. -/
theorem State.readByte_congr {s t : State} (h : t.blocks = s.blocks) (b : BlockId) (i : Nat) :
    t.readByte b i = s.readByte b i := by simp [State.readByte, h]

theorem State.lenOf_congr {s t : State} (h : t.blocks = s.blocks) (b : BlockId) : t.lenOf b = s.lenOf b := by
  simp [State.lenOf, h]

/-- `BlkSet` changes no length. -/
@[simp] theorem State.lenOf_blkSet (s : State) (b b' : BlockId) (i : Nat) (v : Byte) :
    (s.blkSet b i v).lenOf b' = s.lenOf b' := by
  simp only [State.lenOf, State.blkSet_blocks, List.getElem?_modify]
  cases h : s.blocks[b'.toNat]? with
  | none => simp
  | some blk => by_cases e : b.toNat = b'.toNat <;> simp [e]

theorem State.lens_blkSet (s : State) (b : BlockId) (i : Nat) (v : Byte) :
    (s.blkSet b i v).blocks.map Block.len = s.blocks.map Block.len := by
  apply List.ext_getElem?
  intro k
  simp only [State.blkSet_blocks, List.getElem?_map, List.getElem?_modify]
  cases h : s.blocks[k]? with
  | none => simp
  | some blk => by_cases e : b.toNat = k <;> simp [e]

/-- The blocks of a well-formed arena are in canonical form. -/
theorem arenaWf_block {blocks : List Block} (h : arenaWf blocks = true) {k : Nat} {blk : Block}
    (hk : blocks[k]? = some blk) : blk.wf = true := by
  simp only [arenaWf, Bool.and_eq_true, List.all_eq_true] at h
  exact h.2 blk (List.mem_of_getElem? hk)

/-- `BlkSet` below the length keeps the arena well-formed. -/
theorem State.arenaWf_blkSet {s : State} (h : arenaWf s.blocks = true) {b : BlockId} {i n : Nat}
    (hb : s.lenOf b = some n) (hi : i < n) (v : Byte) : arenaWf (s.blkSet b i v).blocks = true := by
  obtain ⟨blk, hblk, rfl⟩ := State.lenOf_eq_some.mp hb
  have hw := h
  simp only [arenaWf, Bool.and_eq_true, List.all_eq_true] at h ⊢
  refine ⟨by simpa using h.1, ?_⟩
  intro x hx
  obtain ⟨k, hk⟩ := List.mem_iff_getElem?.mp hx
  simp only [State.blkSet_blocks, List.getElem?_modify] at hk
  cases hs : s.blocks[k]? with
  | none => simp [hs] at hk
  | some y =>
    by_cases e : b.toNat = k
    · subst k
      obtain rfl : y = blk := by rw [hblk] at hs; exact (Option.some.inj hs).symm
      obtain rfl : y.write i v = x := by simpa [hs] using hk
      exact Block.write_wf (arenaWf_block hw hs) hi
    · obtain rfl : y = x := by simpa [hs, e] using hk
      exact arenaWf_block hw hs

/-- `BlkSet` changes its byte and no other byte of any block (10_state.md R26). -/
theorem State.readByte_blkSet {s : State} (h : arenaWf s.blocks = true) {b : BlockId} {i n : Nat}
    (hb : s.lenOf b = some n) (hi : i < n) (v : Byte) (b' : BlockId) (j : Nat) :
    (s.blkSet b i v).readByte b' j = if b' = b ∧ j = i then some v else s.readByte b' j := by
  obtain ⟨blk, hblk, rfl⟩ := State.lenOf_eq_some.mp hb
  by_cases e : b' = b
  · subst b'
    have hr := Memory.read_write (i := i) (v := v) (arenaWf_block h hblk) j
    simp only [State.readByte, State.blkSet_blocks, List.getElem?_modify, hblk]
    by_cases hj : j = i
    · subst j; simp [hi, Block.write, hr]
    · simp [hj, Block.write, hr]
  · have hne : b.toNat ≠ b'.toNat := fun h' => e (BitVec.eq_of_toNat_eq h'.symm)
    simp only [State.readByte, State.blkSet_blocks, List.getElem?_modify, e, false_and, if_false]
    cases s.blocks[b'.toNat]? <;> simp [hne]

/-- Everything lookup-and-check can answer (40_translation.md R84). -/
theorem State.check_cases (s : State) (op : Mnemonic) (word : Word) (addr : Addr) (d : Dir) (p off need : Nat) :
    (∃ b n, s.check op word addr d p off need = .ok b ∧ s.entry d p = .bound b ∧ s.lenOf b = some n ∧ off + need ≤ n) ∨
    (s.check op word addr d p off need = .bad ∧ s.mode = .release ∧
      (s.entry d p = .absent ∨ ∃ b n, s.entry d p = .bound b ∧ s.lenOf b = some n ∧ n < off + need)) ∨
    (∃ r, s.check op word addr d p off need = .raised r ∧ s.mode = .debug ∧ r.op = op ∧ r.word = word ∧
      (s.entry d p = .absent ∨ ∃ b n, s.entry d p = .bound b ∧ s.lenOf b = some n ∧ n < off + need)) ∨
    (∃ b, s.check op word addr d p off need = .noBlock b ∧ s.entry d p = .bound b ∧ s.lenOf b = none) := by
  unfold State.check
  cases he : s.entry d p with
  | absent => cases hm : s.mode <;> simp [State.isDebug, hm]
  | bound b =>
    cases hl : s.lenOf b with
    | none => simp [hl]
    | some n =>
      by_cases hn : n < off + need
      · cases hm : s.mode <;> simp [State.isDebug, hm, hn, hl]
      · have : off + need ≤ n := by omega
        simp [hn, hl, this]

/-- The check succeeds where the bound block covers the access. -/
theorem State.check_ok {s : State} {d : Dir} {p off need n : Nat} {b : BlockId} (he : (s.mapOf d)[p]? = some (.bound b))
    (hl : s.lenOf b = some n) (hn : off + need ≤ n) (op : Mnemonic) (word : Word) (addr : Addr) :
    s.check op word addr d p off need = .ok b := by
  simp [State.check, State.entry_of_some he, hl, Nat.not_lt.mpr hn]

/-- The check of an Absent entry, or of page 64. -/
theorem State.check_absent {s : State} {d : Dir} {p : Nat} (he : s.entry d p = .absent) (op : Mnemonic) (word : Word)
    (addr : Addr) (off need : Nat) :
    s.check op word addr d p off need =
      if s.isDebug then
        .raised
          { code := .unmappedPage, op := op, word := word, addr := some addr, page := some p, dir := some d,
            offset := some off }
      else .bad := by simp [State.check, he]

/-- The check of a block that is too short. -/
theorem State.check_short {s : State} {d : Dir} {p off need n : Nat} {b : BlockId} (he : (s.mapOf d)[p]? = some (.bound b))
    (hl : s.lenOf b = some n) (hn : n < off + need) (op : Mnemonic) (word : Word) (addr : Addr) :
    s.check op word addr d p off need =
      if s.isDebug then
        .raised
          { code := .offsetOutOfRange, op := op, word := word, addr := some addr, page := some p, dir := some d,
            offset := some off, block := some b, length := some n, need := some need }
      else .bad := by simp [State.check, State.entry_of_some he, hl, hn]

/-- `covers` is what makes the check succeed. -/
theorem State.covers_iff {s : State} {d : Dir} {p off need : Nat} {op : Mnemonic} {word : Word} {addr : Addr} :
    (∃ b, s.check op word addr d p off need = .ok b) ↔
      ∃ b n, s.entry d p = .bound b ∧ s.lenOf b = some n ∧ off + need ≤ n := by
  rcases s.check_cases op word addr d p off need with ⟨b, n, h, he, hl, hn⟩ | ⟨h, -, hb⟩ | ⟨r, h, -, -, -, hb⟩ | ⟨b, h, he, hl⟩
  · exact ⟨fun _ => ⟨b, n, he, hl, hn⟩, fun _ => ⟨b, h⟩⟩
  · refine ⟨fun ⟨b, e⟩ => by simp [h] at e, ?_⟩
    rintro ⟨b, n, he, hl, hn⟩
    rcases hb with hb | ⟨b', n', he', hl', hn'⟩
    · simp [he] at hb
    · rw [he] at he'; cases he'; rw [hl] at hl'; cases hl'; omega
  · refine ⟨fun ⟨b, e⟩ => by simp [h] at e, ?_⟩
    rintro ⟨b, n, he, hl, hn⟩
    rcases hb with hb | ⟨b', n', he', hl', hn'⟩
    · simp [he] at hb
    · rw [he] at he'; cases he'; rw [hl] at hl'; cases hl'; omega
  · refine ⟨fun ⟨b', e⟩ => by simp [h] at e, ?_⟩
    rintro ⟨b', n, he', hl', -⟩
    rw [he] at he'; cases he'; simp [hl] at hl'

/-! The well-formedness of a state, part by part. -/

theorem State.wf_iff {s : State} :
    s.wf = true ↔ arenaWf s.blocks = true ∧ PageMap.wf s.blocks.length s.readMap = true ∧
      PageMap.wf s.blocks.length s.writeMap = true ∧ mapperWf s.mapper = true ∧ (s.inTrap = true → s.fault ≠ none) := by
  simp only [State.wf, Bool.and_eq_true, Bool.or_eq_true, Bool.not_eq_true', State.latched_iff, and_assoc]
  cases s.inTrap <;> simp

/-- Between commands no answer is running, unless a fault stopped it. -/
theorem State.wf_inTrap {s : State} (h : s.wf = true) (hf : s.fault = none) : s.inTrap = false := by
  have := (State.wf_iff.mp h).2.2.2.2
  cases hi : s.inTrap
  · rfl
  · exact absurd hf (this hi)

theorem PageMap.wf_of_state {s : State} (h : s.wf = true) (d : Dir) :
    PageMap.wf s.blocks.length (s.mapOf d) = true := by
  have := State.wf_iff.mp h
  cases d
  · exact this.2.1
  · exact this.2.2.1

/-- In a well-formed state a bound entry names a block of the arena. -/
theorem State.lenOf_of_bound {s : State} (h : s.wf = true) {d : Dir} {p : Nat} {b : BlockId}
    (he : s.entry d p = .bound b) : ∃ n, s.lenOf b = some n :=
  State.hasBlock_iff_lenOf.mp
    (State.hasBlock_iff.mpr (PageMap.wf_bound (PageMap.wf_of_state h d) (State.entry_eq_bound.mp he)))

/-- In a well-formed state lookup-and-check never meets a block id outside the arena. -/
theorem State.check_ne_noBlock {s : State} (h : s.wf = true) (op : Mnemonic) (word : Word) (addr : Addr) (d : Dir)
    (p off need : Nat) (b : BlockId) : s.check op word addr d p off need ≠ .noBlock b := by
  rcases s.check_cases op word addr d p off need with ⟨b', n, e, -⟩ | ⟨e, -⟩ | ⟨r, e, -⟩ | ⟨b', e, he, hl⟩ <;> rw [e] <;> try simp
  obtain ⟨n, hn⟩ := State.lenOf_of_bound h he
  simp [hl] at hn

end Sys2Proof.Machine
end

