-- ==== Sys2Proof/Laws/Copy.lean ====
section
/-! SUPPORT. What COPY's loop does: its frame, and every destination byte (spec 43_bulk_copy.md R120-R123). -/

namespace Sys2Proof.Machine

/-- One step of the loop: nothing but the arena's bytes and the count of draws changes, and no length changes. -/
theorem copyStep_fixed (sb : BlockId) (sp : Nat) (db : BlockId) (dp i : Nat) (s : State) :
    copyStep sb sp db dp i s =
      { s with blocks := (copyStep sb sp db dp i s).blocks, draws := (copyStep sb sp db dp i s).draws } ∧
    (copyStep sb sp db dp i s).blocks.map Block.len = s.blocks.map Block.len := by
  unfold copyStep
  cases s.readByte db (dp + i) with
  | none => exact ⟨rfl, rfl⟩
  | some old =>
    cases s.readByte sb (sp + i) with
    | none => exact ⟨rfl, State.lens_blkSet s _ _ _⟩
    | some x => exact ⟨rfl, State.lens_blkSet s _ _ _⟩

/-- One step keeps the arena well-formed. -/
theorem copyStep_wf {s : State} (h : arenaWf s.blocks = true) (sb : BlockId) (sp : Nat) (db : BlockId) (dp i : Nat) :
    arenaWf (copyStep sb sp db dp i s).blocks = true := by
  unfold copyStep
  cases hd : s.readByte db (dp + i) with
  | none => exact h
  | some old =>
    obtain ⟨n, hn, hi⟩ := State.readByte_isSome_iff.mp ⟨old, hd⟩
    cases hs : s.readByte sb (sp + i) with
    | none => exact State.arenaWf_blkSet h hn hi _
    | some x => exact State.arenaWf_blkSet h hn hi _

/-- Equal lengths, block by block. -/
theorem State.lenOf_of_lens {s t : State} (h : t.blocks.map Block.len = s.blocks.map Block.len) (b : BlockId) :
    t.lenOf b = s.lenOf b := by
  unfold State.lenOf
  rw [← List.getElem?_map, ← List.getElem?_map, h]

theorem State.length_of_lens {s t : State} (h : t.blocks.map Block.len = s.blocks.map Block.len) :
    t.blocks.length = s.blocks.length := by simpa using congrArg List.length h

/-- Changes of bytes and draws alone, one after the other. -/
theorem State.bytesFrame_trans {s t u : State} (h1 : t = { s with blocks := t.blocks, draws := t.draws })
    (h2 : u = { t with blocks := u.blocks, draws := u.draws }) : u = { s with blocks := u.blocks, draws := u.draws } := by
  cases s; cases t; cases u
  simp only [State.mk.injEq] at h1 h2 ⊢
  simp_all

/-- One step's bytes: the destination byte becomes the source byte, or a free one; the rest stays. -/
theorem copyStep_bytes {s : State} (h : arenaWf s.blocks = true) (sb : BlockId) (sp : Nat) (db : BlockId) (dp i : Nat) :
    (s.readByte db (dp + i) = none → copyStep sb sp db dp i s = s) ∧
    (∀ (b : BlockId) (j : Nat), ¬ (b = db ∧ j = dp + i) → (copyStep sb sp db dp i s).readByte b j = s.readByte b j) ∧
    (∀ old x, s.readByte db (dp + i) = some old → s.readByte sb (sp + i) = some x →
      (copyStep sb sp db dp i s).readByte db (dp + i) = some x ∧ (copyStep sb sp db dp i s).draws = s.draws) ∧
    (∀ old, s.readByte db (dp + i) = some old → ∃ x, (copyStep sb sp db dp i s).readByte db (dp + i) = some x) := by
  unfold copyStep
  cases hd : s.readByte db (dp + i) with
  | none => simp
  | some old =>
    obtain ⟨n, hn, hi⟩ := State.readByte_isSome_iff.mp ⟨old, hd⟩
    have key := fun v b j => State.readByte_blkSet h hn hi v b j
    cases hs : s.readByte sb (sp + i) with
    | none =>
      refine ⟨by simp, fun b j hb => ?_, by simp, fun _ _ => ⟨Config.freeByte s.draws, ?_⟩⟩
      · have := key (Config.freeByte s.draws) b j
        rwa [if_neg hb] at this
      · have := key (Config.freeByte s.draws) db (dp + i)
        rwa [if_pos ⟨rfl, rfl⟩] at this
    | some x =>
      refine ⟨by simp, fun b j hb => ?_, fun _ y _ hy => ⟨?_, rfl⟩, fun _ _ => ⟨x, ?_⟩⟩
      · rw [key, if_neg hb]
      · cases hy; rw [key, if_pos ⟨rfl, rfl⟩]
      · rw [key, if_pos ⟨rfl, rfl⟩]

/-- The loop changes nothing but bytes and the count of draws, and no length. -/
theorem copyLoop_fixed (sb : BlockId) (sp : Nat) (db : BlockId) (dp n : Nat) (s : State) :
    copyLoop sb sp db dp n s =
      { s with blocks := (copyLoop sb sp db dp n s).blocks, draws := (copyLoop sb sp db dp n s).draws } ∧
    (copyLoop sb sp db dp n s).blocks.map Block.len = s.blocks.map Block.len := by
  induction n generalizing s with
  | zero => exact ⟨rfl, rfl⟩
  | succ n ih =>
    obtain ⟨e1, l1⟩ := copyStep_fixed sb sp db dp n s
    obtain ⟨e2, l2⟩ := ih (copyStep sb sp db dp n s)
    exact ⟨State.bytesFrame_trans e1 e2, l2.trans l1⟩

/-- The loop keeps the arena well-formed and changes only bytes destPos .. destPos + n - 1 of the destination block. -/
theorem copyLoop_frame (sb : BlockId) (sp : Nat) (db : BlockId) (dp n : Nat) {s : State} (h : arenaWf s.blocks = true) :
    arenaWf (copyLoop sb sp db dp n s).blocks = true ∧
    (∀ (b : BlockId) (j : Nat), ¬ (b = db ∧ dp ≤ j ∧ j < dp + n) →
      (copyLoop sb sp db dp n s).readByte b j = s.readByte b j) := by
  induction n generalizing s with
  | zero => exact ⟨h, fun _ _ _ => rfl⟩
  | succ n ih =>
    obtain ⟨w2, f2⟩ := ih (copyStep_wf h sb sp db dp n)
    refine ⟨w2, fun b j hb => ?_⟩
    show (copyLoop sb sp db dp n (copyStep sb sp db dp n s)).readByte b j = _
    rw [f2 b j (fun hc => hb ⟨hc.1, hc.2.1, by omega⟩),
      (copyStep_bytes h sb sp db dp n).2.1 b j (fun hc => hb ⟨hc.1, by omega, by omega⟩)]

/-- Every destination byte of the loop, the ranges in their blocks or not (43_bulk_copy.md R120, R122): none past the end of the block; some byte for a source index past its block's end; the byte an earlier step left at the source index where that index lies in the destination range above; the original source byte otherwise. -/
theorem copyLoop_bytes_any (sb : BlockId) (sp : Nat) (db : BlockId) (dp n : Nat) {s : State}
    (h : arenaWf s.blocks = true) {ls ld : Nat} (hs : s.lenOf sb = some ls) (hd : s.lenOf db = some ld) :
    ∀ i < n, ∃ x : Byte, (copyLoop sb sp db dp n s).readByte db (dp + i) =
      if ld ≤ dp + i then none
      else if ls ≤ sp + i then some x
      else if sb = db ∧ dp < sp ∧ sp + i < dp + n then (copyLoop sb sp db dp n s).readByte db (sp + i)
      else s.readByte sb (sp + i) := by
  induction n generalizing s with
  | zero => omega
  | succ n ih =>
    have w1 := copyStep_wf h sb sp db dp n
    have l1 := (copyStep_fixed sb sp db dp n s).2
    obtain ⟨-, other, hit, some'⟩ := copyStep_bytes h sb sp db dp n
    have hs1 : (copyStep sb sp db dp n s).lenOf sb = some ls := by rw [State.lenOf_of_lens l1]; exact hs
    have hd1 : (copyStep sb sp db dp n s).lenOf db = some ld := by rw [State.lenOf_of_lens l1]; exact hd
    have top := (copyLoop_frame sb sp db dp n w1).2 db (dp + n) (by omega)
    intro i hi
    show ∃ x : Byte, (copyLoop sb sp db dp n (copyStep sb sp db dp n s)).readByte db (dp + i) =
      if ld ≤ dp + i then none
      else if ls ≤ sp + i then some x
      else if sb = db ∧ dp < sp ∧ sp + i < dp + (n + 1) then
        (copyLoop sb sp db dp n (copyStep sb sp db dp n s)).readByte db (sp + i)
      else s.readByte sb (sp + i)
    by_cases hin : i = n
    · subst i
      rw [top]
      by_cases hr : ld ≤ dp + n
      · exact ⟨0#8, by rw [if_pos hr, State.readByte_eq_none hd1 hr]⟩
      · have hold := State.readByte_blkGet hd (i := dp + n) (by omega)
        by_cases hsr : ls ≤ sp + n
        · obtain ⟨x, hx⟩ := some' _ hold
          exact ⟨x, by rw [if_neg hr, if_pos hsr, hx]⟩
        · have hx := State.readByte_blkGet hs (i := sp + n) (by omega)
          exact ⟨0#8, by rw [if_neg hr, if_neg hsr, if_neg (by omega), (hit _ _ hold hx).1, hx]⟩
    · obtain ⟨x, hx⟩ := ih w1 hs1 hd1 i (by omega)
      refine ⟨x, ?_⟩
      rw [hx]
      refine congrArg (fun o => if ld ≤ dp + i then none else if ls ≤ sp + i then some x else o) ?_
      by_cases hov : sb = db ∧ dp < sp ∧ sp + i < dp + n
      · rw [if_pos hov, if_pos ⟨hov.1, hov.2.1, by omega⟩]
      · rw [if_neg hov]
        by_cases hedge : sb = db ∧ dp < sp ∧ sp + i < dp + (n + 1)
        · have e : sp + i = dp + n := by
            have : ¬ (sp + i < dp + n) := fun h' => hov ⟨hedge.1, hedge.2.1, h'⟩
            omega
          rw [if_pos hedge, e, top, hedge.1]
        · rw [if_neg hedge, other sb (sp + i) (fun hc => hedge ⟨hc.1, by omega, by omega⟩)]

/-- A copy whose ranges fit draws nothing. -/
theorem copyLoop_draws (sb : BlockId) (sp : Nat) (db : BlockId) (dp n : Nat) {s : State} (h : arenaWf s.blocks = true)
    {ls ld : Nat} (hs : s.lenOf sb = some ls) (hd : s.lenOf db = some ld) (fs : sp + n ≤ ls) (fd : dp + n ≤ ld) :
    (copyLoop sb sp db dp n s).draws = s.draws := by
  induction n generalizing s with
  | zero => rfl
  | succ n ih =>
    have l1 := (copyStep_fixed sb sp db dp n s).2
    have hit := (copyStep_bytes h sb sp db dp n).2.2.1 _ _ (State.readByte_blkGet hd (i := dp + n) (by omega))
      (State.readByte_blkGet hs (i := sp + n) (by omega))
    exact (ih (copyStep_wf h sb sp db dp n) (by rw [State.lenOf_of_lens l1]; exact hs)
      (by rw [State.lenOf_of_lens l1]; exact hd) (by omega) (by omega)).trans hit.2

/-- Every destination byte of a copy whose ranges fit; and nothing is drawn. -/
theorem copyLoop_bytes (sb : BlockId) (sp : Nat) (db : BlockId) (dp n : Nat) {s : State} (h : arenaWf s.blocks = true)
    {ls ld : Nat} (hs : s.lenOf sb = some ls) (hd : s.lenOf db = some ld) (fs : sp + n ≤ ls) (fd : dp + n ≤ ld) :
    (copyLoop sb sp db dp n s).draws = s.draws ∧
    ∀ i < n, (copyLoop sb sp db dp n s).readByte db (dp + i) =
      if sb = db ∧ dp < sp ∧ sp + i < dp + n then (copyLoop sb sp db dp n s).readByte db (sp + i)
      else s.readByte sb (sp + i) := by
  refine ⟨copyLoop_draws sb sp db dp n h hs hd fs fd, fun i hi => ?_⟩
  obtain ⟨x, hx⟩ := copyLoop_bytes_any sb sp db dp n h hs hd i hi
  rwa [if_neg (by omega), if_neg (by omega)] at hx

/-- Everything COPY can do past the latch (43_bulk_copy.md R120): a fault and nothing else, nothing, or the loop. -/
theorem copyRange_cases (c : CopyOperands) (s : State) :
    (∃ r, copyRange c s = s.raise r ∧ r.op = .copy ∧
      r.word = firstWord (.copy c.srcBlk c.srcPos c.destBlk c.destPos c.length) ∧
      (r.code = .invalidBlock ∨ r.code = .offsetOutOfRange ∧ s.mode = .debug)) ∨
    copyRange c s = s ∨
    (copyRange c s = copyLoop c.srcBlk c.srcPos.toNat c.destBlk c.destPos.toNat c.length.toNat s ∧
      s.hasBlock c.srcBlk = true ∧ s.hasBlock c.destBlk = true) := by
  unfold copyRange
  cases h1 : s.hasBlock c.srcBlk
  · exact .inl ⟨_, by simp; rfl, rfl, rfl, .inl rfl⟩
  cases h2 : s.hasBlock c.destBlk
  · exact .inl ⟨_, by simp; rfl, rfl, rfl, .inl rfl⟩
  by_cases h3 : c.length = 0#32
  · exact .inr (.inl (by simp [h3]))
  cases h4 : s.isDebug && !(s.rangeFits c.srcBlk c.srcPos.toNat c.length.toNat &&
      s.rangeFits c.destBlk c.destPos.toNat c.length.toNat)
  · exact .inr (.inr ⟨by simp only [h3]; rfl, rfl, rfl⟩)
  · refine .inl ⟨copyOutOfRange c, by simp only [h3]; rfl, rfl, rfl, .inr ⟨rfl, ?_⟩⟩
    simp only [Bool.and_eq_true] at h4
    exact (State.isDebug_iff s).mp h4.1

/-- COPY of ranges that fit runs the loop, whatever the mode and the length. -/
theorem copyRange_fits {c : CopyOperands} {s : State} {ls ld : Nat} (hs : s.lenOf c.srcBlk = some ls)
    (hd : s.lenOf c.destBlk = some ld) (fs : c.srcPos.toNat + c.length.toNat ≤ ls)
    (fd : c.destPos.toNat + c.length.toNat ≤ ld) :
    copyRange c s = copyLoop c.srcBlk c.srcPos.toNat c.destBlk c.destPos.toNat c.length.toNat s := by
  have h1 := State.hasBlock_iff_lenOf.mpr ⟨ls, hs⟩
  have h2 := State.hasBlock_iff_lenOf.mpr ⟨ld, hd⟩
  by_cases h3 : c.length = 0#32
  · simp [copyRange, h1, h2, h3, copyLoop]
  · simp [copyRange, h1, h2, h3, State.rangeFits, hs, hd, fs, fd]

/-- COPY changes nothing but bytes, the fault latch and the count of draws, and no length. -/
theorem copyRange_fixed (c : CopyOperands) (s : State) :
    copyRange c s =
      { s with blocks := (copyRange c s).blocks, fault := (copyRange c s).fault, draws := (copyRange c s).draws } ∧
    (copyRange c s).blocks.map Block.len = s.blocks.map Block.len := by
  rcases copyRange_cases c s with ⟨r, e, -⟩ | e | ⟨e, -⟩
  · rw [e]; exact ⟨rfl, rfl⟩
  · rw [e]; exact ⟨rfl, rfl⟩
  · rw [e]
    obtain ⟨f, l⟩ := copyLoop_fixed c.srcBlk c.srcPos.toNat c.destBlk c.destPos.toNat c.length.toNat s
    refine ⟨?_, l⟩
    generalize copyLoop c.srcBlk c.srcPos.toNat c.destBlk c.destPos.toNat c.length.toNat s = t at f
    rw [f]

/-- COPY keeps the arena well-formed and changes only bytes destPos .. destPos + length - 1 of destBlk. -/
theorem copyRange_frame (c : CopyOperands) {s : State} (h : arenaWf s.blocks = true) :
    arenaWf (copyRange c s).blocks = true ∧
    (∀ (b : BlockId) (j : Nat),
      ¬ (b = c.destBlk ∧ c.destPos.toNat ≤ j ∧ j < c.destPos.toNat + c.length.toNat) →
        (copyRange c s).readByte b j = s.readByte b j) := by
  rcases copyRange_cases c s with ⟨r, e, -⟩ | e | ⟨e, -⟩
  · rw [e]; exact ⟨h, fun _ _ _ => rfl⟩
  · rw [e]; exact ⟨h, fun _ _ _ => rfl⟩
  · rw [e]; exact copyLoop_frame c.srcBlk c.srcPos.toNat c.destBlk c.destPos.toNat c.length.toNat h

end Sys2Proof.Machine
end

