-- ==== Sys2Proof/Laws/Trap.lean ====
section
/-! SUPPORT. What TRANS, RESOLVE and BIND do, what a command of the mapper's answer can change, and what a notification does (spec 42_trap.md R110-R116). -/

namespace Sys2Proof.Machine

/-- Everything RESOLVE can do past the latch (40_translation.md R81). -/
theorem resolveEntry_cases (d : Dir) (p : Page) (s : State) :
    (∃ b, s.entry d p.toNat = .bound b ∧ resolveEntry d p s = s.respond (boundResponse b)) ∨
    (s.entry d p.toNat = .absent ∧ s.mode = .release ∧ resolveEntry d p s = s.respond 0#32) ∨
    (s.entry d p.toNat = .absent ∧ s.mode = .debug ∧ ∃ r, resolveEntry d p s = s.raise r ∧ r.code = .unmappedPage ∧
      r.op = .resolve ∧ r.word = firstWord (.resolve d p)) := by
  unfold resolveEntry
  cases h : s.entry d p.toNat with
  | bound b => exact .inl ⟨b, rfl, rfl⟩
  | absent =>
    cases hm : s.mode
    · exact .inr (.inr ⟨rfl, rfl, _, by simp [State.isDebug, hm]; rfl, rfl, rfl, rfl⟩)
    · exact .inr (.inl ⟨rfl, rfl, by simp [State.isDebug, hm]⟩)

/-- Everything BIND can do past the latch (40_translation.md R82). -/
theorem bindEntry_cases (d : Dir) (p : Page) (b : BlockId) (s : State) :
    (b.toNat < s.blocks.length ∧ bindEntry d p b s = s.setEntry d p (.bound b)) ∨
    (s.blocks.length ≤ b.toNat ∧ ∃ r, bindEntry d p b s = s.raise r ∧ r.code = .invalidBlock ∧ r.op = .bind ∧
      r.word = firstWord (.bind d p b)) := by
  unfold bindEntry
  by_cases h : b.toNat < s.blocks.length
  · exact .inl ⟨h, by simp [State.hasBlock, h]⟩
  · exact .inr ⟨by omega, _, by simp [State.hasBlock, h]; rfl, rfl, rfl, rfl⟩

/-- What no command of an answer changes: MODE, MAPPER, mapperState, inTrap, notifyLog, the request channel and every length; responses are only appended (42_trap.md R113, R116). -/
structure NestedFrame (s t : State) : Prop where
  mode : t.mode = s.mode
  mapper : t.mapper = s.mapper
  mapperState : t.mapperState = s.mapperState
  inTrap : t.inTrap = s.inTrap
  notifyLog : t.notifyLog = s.notifyLog
  requests : t.requests = s.requests
  lens : t.blocks.map Block.len = s.blocks.map Block.len
  responses : s.responses <+: t.responses

theorem NestedFrame.refl (s : State) : NestedFrame s s := ⟨rfl, rfl, rfl, rfl, rfl, rfl, rfl, List.prefix_rfl⟩

theorem NestedFrame.trans {s t u : State} (h1 : NestedFrame s t) (h2 : NestedFrame t u) : NestedFrame s u :=
  ⟨h2.mode.trans h1.mode, h2.mapper.trans h1.mapper, h2.mapperState.trans h1.mapperState, h2.inTrap.trans h1.inTrap,
    h2.notifyLog.trans h1.notifyLog, h2.requests.trans h1.requests, h2.lens.trans h1.lens, h1.responses.trans h2.responses⟩

theorem NestedFrame.raise (s : State) (r : FaultRecord) : NestedFrame s (s.raise r) :=
  ⟨rfl, rfl, rfl, rfl, rfl, rfl, rfl, List.prefix_rfl⟩

theorem NestedFrame.respond (s : State) (w : Word) : NestedFrame s (s.respond w) :=
  ⟨rfl, rfl, rfl, rfl, rfl, rfl, rfl, List.prefix_append _ _⟩

theorem NestedFrame.setEntry (s : State) (d : Dir) (p : Page) (e : Entry) : NestedFrame s (s.setEntry d p e) := by
  constructor <;> simp

/-- A command of the mapper's answer stays in the frame. -/
theorem runNested_frame (c : Command) (s : State) : NestedFrame s (runNested c s) := by
  cases c with
  | reserved op w => exact .raise s _
  | instr i =>
    cases i with
    | trans a => exact .respond s _
    | rb a => exact .raise s _
    | wb a v => exact .raise s _
    | rw a => exact .raise s _
    | bind d p b =>
      show NestedFrame s (bindEntry d p b s)
      rcases bindEntry_cases d p b s with ⟨-, e⟩ | ⟨-, r, e, -⟩ <;> rw [e]
      · exact .setEntry s d p _
      · exact .raise s r
    | resolve d p =>
      show NestedFrame s (resolveEntry d p s)
      rcases resolveEntry_cases d p s with ⟨b, -, e⟩ | ⟨-, -, e⟩ | ⟨-, -, r, e, -⟩ <;> rw [e]
      · exact .respond s _
      · exact .respond s _
      · exact .raise s r
    | copy sb sp db dp n =>
      show NestedFrame s (copyRange ⟨sb, sp, db, dp, n⟩ s)
      obtain ⟨e, l⟩ := copyRange_fixed ⟨sb, sp, db, dp, n⟩ s
      generalize copyRange ⟨sb, sp, db, dp, n⟩ s = t at e l
      rw [e] at l ⊢
      exact ⟨rfl, rfl, rfl, rfl, rfl, rfl, l, List.prefix_rfl⟩
    | reset => exact .raise s _
    | illegal w => exact .raise s _
    | notify k v => exact .refl s

/-- The whole answer stays in the frame. -/
theorem runAnswer_frame (cs : List Command) (s : State) : NestedFrame s (runAnswer cs s) := by
  induction cs generalizing s with
  | nil => exact .refl s
  | cons c rest ih =>
    unfold runAnswer
    split
    · exact .refl s
    · exact (runNested_frame c s).trans (ih _)

/-- What a property needs so that the mapper's answer keeps it: each command keeps it. -/
theorem runAnswer_keeps {P : State → Prop} {cs : List Command} (step : ∀ c ∈ cs, ∀ s, P s → P (runNested c s))
    {s : State} (h : P s) : P (runAnswer cs s) := by
  induction cs generalizing s with
  | nil => exact h
  | cons c rest ih =>
    unfold runAnswer
    split
    · exact h
    · exact ih (fun c' hc => step c' (List.mem_cons_of_mem c hc)) (step c List.mem_cons_self s h)

/-- The arena and both maps are well-formed: the part of `State.wf` that an answer could break. -/
def State.tablesWf (s : State) : Prop :=
  arenaWf s.blocks = true ∧ PageMap.wf s.blocks.length s.readMap = true ∧ PageMap.wf s.blocks.length s.writeMap = true

/-- A command of the mapper's answer keeps the arena and the maps well-formed. -/
theorem runNested_tablesWf (c : Command) {s : State} (h : s.tablesWf) : (runNested c s).tablesWf := by
  cases c with
  | reserved op w => exact h
  | instr i =>
    cases i with
    | trans a => exact h
    | rb a => exact h
    | wb a v => exact h
    | rw a => exact h
    | bind d p b =>
      show (bindEntry d p b s).tablesWf
      rcases bindEntry_cases d p b s with ⟨hb, e⟩ | ⟨-, r, e, -⟩ <;> rw [e]
      · have he : (Entry.bound b).wf s.blocks.length = true := by simpa [Entry.wf] using hb
        cases d
        · exact ⟨h.1, PageMap.wf_set h.2.1 he p, h.2.2⟩
        · exact ⟨h.1, h.2.1, PageMap.wf_set h.2.2 he p⟩
      · exact h
    | resolve d p =>
      show (resolveEntry d p s).tablesWf
      rcases resolveEntry_cases d p s with ⟨b, -, e⟩ | ⟨-, -, e⟩ | ⟨-, -, r, e, -⟩ <;> rw [e] <;> exact h
    | copy sb sp db dp n =>
      show (copyRange ⟨sb, sp, db, dp, n⟩ s).tablesWf
      obtain ⟨e, l⟩ := copyRange_fixed ⟨sb, sp, db, dp, n⟩ s
      have w := (copyRange_frame ⟨sb, sp, db, dp, n⟩ h.1).1
      have hlen := State.length_of_lens l
      refine ⟨w, ?_, ?_⟩
      · rw [hlen, e]; exact h.2.1
      · rw [hlen, e]; exact h.2.2
    | reset => exact h
    | illegal w => exact h
    | notify k v => exact h

/-- The answer taken is a member of the set, and taking it changes at most the count of draws (00_scope.md R11). -/
theorem State.chooseAnswer_spec (s : State) (k : RegIndex) (v : Byte) :
    s.MayAnswer k v (s.chooseAnswer k v).1 ∧ ∃ n, (s.chooseAnswer k v).2 = { s with draws := n } := by
  unfold State.chooseAnswer State.MayAnswer
  cases h : s.listedAnswers k v with
  | nil =>
    cases s.mapper.unlisted with
    | relation i => exact ⟨⟨_, rfl⟩, s.draws + 1, rfl⟩
    | nothing => exact ⟨rfl, s.draws, rfl⟩
  | cons a rest =>
    cases rest with
    | nil => exact ⟨List.mem_singleton_self a, s.draws, rfl⟩
    | cons b more =>
      refine ⟨?_, s.draws + 1, rfl⟩
      have hlt : Config.freeChoice s.draws % (a :: b :: more).length < (a :: b :: more).length :=
        Nat.mod_lt _ (by simp)
      simp only [List.getElem?_eq_getElem hlt, Option.getD_some]
      exact List.getElem_mem hlt

/-- A member is a written-out tuple's, or one of the unconstrained relation's, or the answer that does nothing (00_scope.md R11). -/
theorem State.mayAnswer_cases {s : State} {k : RegIndex} {v : Byte} {a : Answer} (h : s.MayAnswer k v a) :
    (∃ row ∈ s.mapper.rows, row.matches s k v = true ∧ a = { next := row.next, words := row.answer }) ∨
    (∃ i n, a = s.relationAnswer i k v n) ∨ a = s.noAnswer := by
  unfold State.MayAnswer at h
  cases hl : s.listedAnswers k v with
  | nil =>
    rw [hl] at h
    cases hu : s.mapper.unlisted with
    | relation i =>
      rw [hu] at h
      obtain ⟨n, rfl⟩ := h
      exact .inr (.inl ⟨i, n, rfl⟩)
    | nothing =>
      rw [hu] at h
      exact .inr (.inr h)
  | cons b rest =>
    rw [hl] at h
    have hm : a ∈ s.listedAnswers k v := by rw [hl]; exact h
    obtain ⟨row, hr, rfl⟩ := List.mem_map.mp hm
    obtain ⟨hr, hk⟩ := List.mem_filter.mp hr
    exact .inl ⟨row, hr, hk, rfl⟩

/-- The unconstrained relation answers whole commands. -/
theorem State.relationAnswer_whole (s : State) (i : Nat) (k : RegIndex) (v : Byte) (n : Nat) :
    wholeStream (s.relationAnswer i k v n).words = true := by
  simp only [State.relationAnswer]
  split
  · assumption
  · rfl

/-- In a well-formed mapper every member is whole commands. -/
theorem State.mayAnswer_whole {s : State} (h : mapperWf s.mapper = true) {k : RegIndex} {v : Byte} {a : Answer}
    (ha : s.MayAnswer k v a) : wholeStream a.words = true := by
  rcases State.mayAnswer_cases ha with ⟨row, hr, -, rfl⟩ | ⟨i, n, rfl⟩ | rfl
  · exact (List.all_eq_true.mp h) row hr
  · exact s.relationAnswer_whole i k v n
  · rfl

/-- The set depends on nothing but mapperState, the page table and MAPPER (00_scope.md R11). -/
theorem State.mayAnswer_congr {s t : State} (h1 : t.mapper = s.mapper) (h2 : t.mapperState = s.mapperState)
    (h3 : t.readMap = s.readMap) (h4 : t.writeMap = s.writeMap) (k : RegIndex) (v : Byte) (a : Answer) :
    t.MayAnswer k v a ↔ s.MayAnswer k v a := by
  have hp : (fun r : MapperRow => r.matches t k v) = (fun r => r.matches s k v) := by
    funext r; simp [MapperRow.matches, State.pageTable, h2, h3, h4]
  simp only [State.MayAnswer, State.listedAnswers, State.relationAnswer, State.noAnswer, State.pageTable, h1, h2, h3, h4, hp]
  rfl

/-- Everything a notification can do (42_trap.md R110): refuse an answer that is no list of whole commands, or log, run one member of MAPPER's set with inTrap true, and return unless a fault was latched. -/
theorem notify_cases (k : RegIndex) (v : Byte) (s : State) :
    ∃ a, s.MayAnswer k v a ∧
      ((decodeAll a.words = none ∧ notify k v s = .refused .truncatedCopy) ∨
      (∃ (cs : List Command) (n : Nat), decodeAll a.words = some cs ∧
        notify k v s =
          .next (runAnswer cs { s with notifyLog := s.notifyLog ++ [{ k := k, v := v }], mapperState := a.next, inTrap := true, draws := n }).leaveTrap)) := by
  have hc := ({ s with notifyLog := s.notifyLog ++ [{ k := k, v := v }] } : State).chooseAnswer_spec k v
  rw [State.mayAnswer_congr (s := s) (t := { s with notifyLog := s.notifyLog ++ [{ k := k, v := v }] }) rfl rfl rfl rfl k v] at hc
  obtain ⟨hm, n, hn⟩ := hc
  simp only [notify]
  generalize ({ s with notifyLog := s.notifyLog ++ [{ k := k, v := v }] } : State).chooseAnswer k v = ch at hm hn ⊢
  refine ⟨ch.1, hm, ?_⟩
  cases hd : decodeAll ch.1.words with
  | none => exact .inl ⟨rfl, rfl⟩
  | some cs =>
    refine .inr ⟨cs, n, rfl, ?_⟩
    simp only [hn]
    rfl

end Sys2Proof.Machine
end

