-- ==== Sys2Proof/Laws/Access.lean ====
section
/-! SUPPORT. Everything RB, WB and RW can do past the latch and the reentrancy check (spec 41_access.md R90-R97), and what every command leaves as it is. -/

namespace Sys2Proof.Machine

/-- Everything RB can do (R90): the bound byte, a free byte in Release, a fault in Debug; or the model's stop on a block outside the arena. -/
theorem readByteAt_cases (a : Addr) (s : State) :
    (∃ b v, s.readMap[a.toNat / 1024]? = some (.bound b) ∧ s.readByte b (a.toNat % 1024) = some v ∧
      readByteAt a s = .next (s.respond (v.setWidth 32))) ∨
    (s.mode = .release ∧ readByteAt a s = .next s.respondFreeByte) ∨
    (∃ r, s.mode = .debug ∧ readByteAt a s = .next (s.raise r) ∧ r.word = firstWord (.rb a)) ∨
    (∃ b, s.readMap[a.toNat / 1024]? = some (.bound b) ∧ s.lenOf b = none ∧ readByteAt a s = .fault (.noSuchBlock b)) := by
  unfold readByteAt
  simp only [pageOf_widen, offsetOf_widen]
  rcases s.check_cases .rb (firstWord (.rb a)) a .r (a.toNat / 1024) (a.toNat % 1024) 1 with
    ⟨b, n, e, he, hl, hn⟩ | ⟨e, hm, -⟩ | ⟨r, e, hm, -, hw, -⟩ | ⟨b, e, he, hl⟩ <;> rw [e]
  · exact .inl ⟨b, _, State.entry_eq_bound.mp he, State.readByte_blkGet hl hn, rfl⟩
  · exact .inr (.inl ⟨hm, rfl⟩)
  · exact .inr (.inr (.inl ⟨r, hm, rfl, hw⟩))
  · exact .inr (.inr (.inr ⟨b, State.entry_eq_bound.mp he, hl, rfl⟩))

/-- Everything WB can do before the trap check (R92): the store, a Release failure without one, a fault in Debug; or the model's stop. -/
theorem writeByteAt_cases (a : Addr) (v : Byte) (s : State) :
    (∃ b n, s.writeMap[a.toNat / 1024]? = some (.bound b) ∧ s.lenOf b = some n ∧ a.toNat % 1024 < n ∧
      writeByteAt a v s = afterStore a v (s.blkSet b (a.toNat % 1024) v)) ∨
    (s.mode = .release ∧ writeByteAt a v s = afterStore a v s ∧
      (s.entry .w (a.toNat / 1024) = .absent ∨
        ∃ b n, s.entry .w (a.toNat / 1024) = .bound b ∧ s.lenOf b = some n ∧ n < a.toNat % 1024 + 1)) ∨
    (∃ r, s.mode = .debug ∧ writeByteAt a v s = .next (s.raise r) ∧ r.word = firstWord (.wb a v) ∧
      (s.entry .w (a.toNat / 1024) = .absent ∨
        ∃ b n, s.entry .w (a.toNat / 1024) = .bound b ∧ s.lenOf b = some n ∧ n < a.toNat % 1024 + 1)) ∨
    (∃ b, s.writeMap[a.toNat / 1024]? = some (.bound b) ∧ s.lenOf b = none ∧ writeByteAt a v s = .fault (.noSuchBlock b)) := by
  unfold writeByteAt
  simp only [pageOf_widen, offsetOf_widen]
  rcases s.check_cases .wb (firstWord (.wb a v)) a .w (a.toNat / 1024) (a.toNat % 1024) 1 with
    ⟨b, n, e, he, hl, hn⟩ | ⟨e, hm, hb⟩ | ⟨r, e, hm, -, hw, hb⟩ | ⟨b, e, he, hl⟩ <;> rw [e]
  · exact .inl ⟨b, n, State.entry_eq_bound.mp he, hl, hn, rfl⟩
  · exact .inr (.inl ⟨hm, rfl, hb⟩)
  · exact .inr (.inr (.inl ⟨r, hm, rfl, hw, hb⟩))
  · exact .inr (.inr (.inr ⟨b, State.entry_eq_bound.mp he, hl, rfl⟩))

/-- Everything RW can do (R95): on both paths the low byte is the one RB reads at a and the high byte the one it reads at a + 1; a free half word in Release; a fault in Debug; or the model's stop. -/
theorem readWordAt_cases (a : Addr) (s : State) :
    (∃ b1 b2 low high, s.readMap[a.toNat / 1024]? = some (.bound b1) ∧ s.readByte b1 (a.toNat % 1024) = some low ∧
      s.readMap[(a.toNat + 1) / 1024]? = some (.bound b2) ∧ s.readByte b2 ((a.toNat + 1) % 1024) = some high ∧
      readWordAt a s = .next (s.respond ((littleEndian low high).setWidth 32))) ∨
    (s.mode = .release ∧ readWordAt a s = .next s.respondFreeHalf) ∨
    (∃ r, s.mode = .debug ∧ readWordAt a s = .next (s.raise r) ∧ r.word = firstWord (.rw a)) ∨
    (∃ (p : Nat) (b : BlockId), s.readMap[p]? = some (.bound b) ∧ s.lenOf b = none ∧ readWordAt a s = .fault (.noSuchBlock b)) := by
  unfold readWordAt
  simp only [offsetOf_widen, Config.pageSize]
  split
  · rename_i hoff
    unfold readWordFast
    simp only [pageOf_widen, offsetOf_widen]
    have hp : (a.toNat + 1) / 1024 = a.toNat / 1024 := by omega
    have ho : (a.toNat + 1) % 1024 = a.toNat % 1024 + 1 := by omega
    rcases s.check_cases .rw (firstWord (.rw a)) a .r (a.toNat / 1024) (a.toNat % 1024) 2 with
      ⟨b, n, e, he, hl, hn⟩ | ⟨e, hm, -⟩ | ⟨r, e, hm, -, hw, -⟩ | ⟨b, e, he, hl⟩ <;> rw [e]
    · refine .inl ⟨b, b, _, _, State.entry_eq_bound.mp he, State.readByte_blkGet hl (by omega), ?_, ?_, rfl⟩
      · rw [hp]; exact State.entry_eq_bound.mp he
      · rw [ho]; exact State.readByte_blkGet hl (by omega)
    · exact .inr (.inl ⟨hm, rfl⟩)
    · exact .inr (.inr (.inl ⟨r, hm, rfl, hw⟩))
    · exact .inr (.inr (.inr ⟨_, b, State.entry_eq_bound.mp he, hl, rfl⟩))
  · unfold readWordSplit
    simp only [pageOf_widen, offsetOf_widen, pageOf_highByteAddr, offsetOf_highByteAddr]
    rcases s.check_cases .rw (firstWord (.rw a)) a .r (a.toNat / 1024) (a.toNat % 1024) 1 with
      ⟨b, n, e, he, hl, hn⟩ | ⟨e, hm, -⟩ | ⟨r, e, hm, -, hw, -⟩ | ⟨b, e, he, hl⟩ <;>
    rcases s.check_cases .rw (firstWord (.rw a)) a .r ((a.toNat + 1) / 1024) ((a.toNat + 1) % 1024) 1 with
      ⟨b', n', e', he', hl', hn'⟩ | ⟨e', hm', -⟩ | ⟨r', e', hm', -, hw', -⟩ | ⟨b', e', he', hl'⟩ <;> rw [e, e']
    · exact .inl ⟨b, b', _, _, State.entry_eq_bound.mp he, State.readByte_blkGet hl hn,
        State.entry_eq_bound.mp he', State.readByte_blkGet hl' hn', rfl⟩
    · exact .inr (.inl ⟨hm', rfl⟩)
    · exact .inr (.inr (.inl ⟨r', hm', rfl, hw'⟩))
    · exact .inr (.inr (.inr ⟨_, b', State.entry_eq_bound.mp he', hl', rfl⟩))
    · exact .inr (.inl ⟨hm, rfl⟩)
    · exact .inr (.inl ⟨hm, rfl⟩)
    · exact absurd (hm.symm.trans hm') (by simp)
    · exact .inr (.inr (.inr ⟨_, b', State.entry_eq_bound.mp he', hl', rfl⟩))
    · exact .inr (.inr (.inl ⟨r, hm, rfl, hw⟩))
    · exact .inr (.inr (.inl ⟨r, hm, rfl, hw⟩))
    · exact .inr (.inr (.inl ⟨r, hm, rfl, hw⟩))
    · exact .inr (.inr (.inl ⟨r, hm, rfl, hw⟩))
    · exact .inr (.inr (.inr ⟨_, b, State.entry_eq_bound.mp he, hl, rfl⟩))
    · exact .inr (.inr (.inr ⟨_, b, State.entry_eq_bound.mp he, hl, rfl⟩))
    · exact .inr (.inr (.inr ⟨_, b, State.entry_eq_bound.mp he, hl, rfl⟩))
    · exact .inr (.inr (.inr ⟨_, b, State.entry_eq_bound.mp he, hl, rfl⟩))

/-- What no command changes: MODE, MAPPER, the request channel and every length; responses and notifications are only appended (00_scope.md R7, 42_trap.md R116). -/
structure ExecFrame (s t : State) : Prop where
  mode : t.mode = s.mode
  mapper : t.mapper = s.mapper
  requests : t.requests = s.requests
  lens : t.blocks.map Block.len = s.blocks.map Block.len
  responses : s.responses <+: t.responses
  notifyLog : s.notifyLog <+: t.notifyLog

theorem ExecFrame.refl (s : State) : ExecFrame s s := ⟨rfl, rfl, rfl, rfl, List.prefix_rfl, List.prefix_rfl⟩

theorem ExecFrame.trans {s t u : State} (h1 : ExecFrame s t) (h2 : ExecFrame t u) : ExecFrame s u :=
  ⟨h2.mode.trans h1.mode, h2.mapper.trans h1.mapper, h2.requests.trans h1.requests, h2.lens.trans h1.lens,
    h1.responses.trans h2.responses, h1.notifyLog.trans h2.notifyLog⟩

theorem ExecFrame.of_nested {s t : State} (h : NestedFrame s t) : ExecFrame s t :=
  ⟨h.mode, h.mapper, h.requests, h.lens, h.responses, h.notifyLog ▸ List.prefix_rfl⟩

theorem ExecFrame.blkSet (s : State) (b : BlockId) (i : Nat) (v : Byte) : ExecFrame s (s.blkSet b i v) :=
  ⟨rfl, rfl, rfl, State.lens_blkSet s b i v, List.prefix_rfl, List.prefix_rfl⟩

/-- A notification stays in the frame. -/
theorem notify_frame {k : RegIndex} {v : Byte} {s t : State} (h : notify k v s = .next t) : ExecFrame s t := by
  obtain ⟨a, -, ⟨-, e⟩ | ⟨cs, n, -, e⟩⟩ := notify_cases k v s <;> rw [e] at h
  · cases h
  · cases h
    have f := runAnswer_frame cs { s with notifyLog := s.notifyLog ++ [{ k := k, v := v }], mapperState := a.next, inTrap := true, draws := n }
    exact ⟨by simpa using f.mode, by simpa using f.mapper, by simpa using f.requests, by simpa using f.lens,
      by simpa using f.responses, by simp [f.notifyLog]⟩

theorem afterStore_frame {a : Addr} {v : Byte} {s t : State} (h : afterStore a v s = .next t) : ExecFrame s t := by
  unfold afterStore at h
  split at h
  · exact notify_frame h
  · cases h; exact .refl s

/-- Past the latch: either nothing happened, or the command's own body ran. -/
theorem State.unlessLatched_eq_next {s t : State} {body : Host.Outcome State Fault Refusal}
    (h : s.unlessLatched body = .next t) : (s.latched = true ∧ t = s) ∨ (s.fault = none ∧ body = .next t) := by
  unfold State.unlessLatched at h
  split at h
  · rename_i hl; cases h; exact .inl ⟨hl, rfl⟩
  · rename_i hl; exact .inr ⟨(State.not_latched_iff s).mp (by simpa using hl), h⟩

/-- Past the reentrancy check: the fault, or the body. -/
theorem State.unlessInTrap_eq_next {s t : State} {op : Mnemonic} {w : Word} {body : Host.Outcome State Fault Refusal}
    (h : s.unlessInTrap op w body = .next t) :
    (s.inTrap = true ∧ t = s.raise (reentrantRecord op w)) ∨ (s.inTrap = false ∧ body = .next t) := by
  unfold State.unlessInTrap at h
  split at h
  · rename_i hl; cases h; exact .inl ⟨hl, rfl⟩
  · rename_i hl; exact .inr ⟨by simpa using hl, h⟩

/-- A command other than RB, WB, RW, RESET and NOTIFY is its nested effect, past the latch. -/
theorem exec_eq_nested (i : Instr) (s : State)
    (hi : (∀ a, i ≠ .rb a) ∧ (∀ a v, i ≠ .wb a v) ∧ (∀ a, i ≠ .rw a) ∧ i ≠ .reset ∧ (∀ k v, i ≠ .notify k v)) :
    exec i s = s.unlessLatched (.next (runNested (.instr i) s)) := by
  cases i with
  | rb a => exact absurd rfl (hi.1 a)
  | wb a v => exact absurd rfl (hi.2.1 a v)
  | rw a => exact absurd rfl (hi.2.2.1 a)
  | reset => exact absurd rfl hi.2.2.2.1
  | notify k v => exact absurd rfl (hi.2.2.2.2 k v)
  | trans a => rfl
  | bind d p b => rfl
  | resolve d p => rfl
  | copy sb sp db dp n => rfl
  | illegal w => rfl

/-- Every command stays in the frame. -/
theorem exec_frame {i : Instr} {s t : State} (h : exec i s = .next t) : ExecFrame s t := by
  have simple : exec i s = s.unlessLatched (.next (runNested (.instr i) s)) → ExecFrame s t := by
    intro e
    rw [e] at h
    rcases State.unlessLatched_eq_next h with ⟨-, rfl⟩ | ⟨-, e'⟩
    · exact .refl t
    · cases e'; exact .of_nested (runNested_frame _ s)
  cases i with
  | trans a => exact simple rfl
  | bind d p b => exact simple rfl
  | resolve d p => exact simple rfl
  | copy sb sp db dp n => exact simple rfl
  | illegal w => exact simple rfl
  | rb a =>
    rcases State.unlessLatched_eq_next h with ⟨-, rfl⟩ | ⟨-, h⟩
    · exact .refl t
    rcases State.unlessInTrap_eq_next h with ⟨-, rfl⟩ | ⟨-, h⟩
    · exact .of_nested (.raise s _)
    rcases readByteAt_cases a s with ⟨b, v, -, -, e⟩ | ⟨-, e⟩ | ⟨r, -, e, -⟩ | ⟨b, -, -, e⟩ <;> rw [e] at h <;> cases h
    · exact .of_nested (.respond s _)
    · exact ⟨rfl, rfl, rfl, rfl, List.prefix_append _ _, List.prefix_rfl⟩
    · exact .of_nested (.raise s r)
  | wb a v =>
    rcases State.unlessLatched_eq_next h with ⟨-, rfl⟩ | ⟨-, h⟩
    · exact .refl t
    rcases State.unlessInTrap_eq_next h with ⟨-, rfl⟩ | ⟨-, h⟩
    · exact .of_nested (.raise s _)
    rcases writeByteAt_cases a v s with ⟨b, n, -, -, -, e⟩ | ⟨-, e, -⟩ | ⟨r, -, e, -⟩ | ⟨b, -, -, e⟩ <;> rw [e] at h
    · exact (ExecFrame.blkSet s b _ v).trans (afterStore_frame h)
    · exact afterStore_frame h
    · cases h; exact .of_nested (.raise s r)
    · cases h
  | rw a =>
    rcases State.unlessLatched_eq_next h with ⟨-, rfl⟩ | ⟨-, h⟩
    · exact .refl t
    rcases State.unlessInTrap_eq_next h with ⟨-, rfl⟩ | ⟨-, h⟩
    · exact .of_nested (.raise s _)
    rcases readWordAt_cases a s with ⟨b1, b2, lo, hi, -, -, -, -, e⟩ | ⟨-, e⟩ | ⟨r, -, e, -⟩ | ⟨p, b, -, -, e⟩ <;>
      rw [e] at h <;> cases h
    · exact .of_nested (.respond s _)
    · exact ⟨rfl, rfl, rfl, rfl, List.prefix_append _ _, List.prefix_rfl⟩
    · exact .of_nested (.raise s r)
  | reset =>
    rcases State.unlessLatched_eq_next h with ⟨-, rfl⟩ | ⟨-, h⟩
    · exact .refl t
    rcases State.unlessInTrap_eq_next h with ⟨-, rfl⟩ | ⟨-, h⟩
    · exact .of_nested (.raise s _)
    · cases h; exact ⟨rfl, rfl, rfl, rfl, List.prefix_rfl, List.prefix_rfl⟩
  | notify k v =>
    rcases State.unlessLatched_eq_next h with ⟨-, rfl⟩ | ⟨-, h⟩
    · exact .refl t
    · exact notify_frame h

end Sys2Proof.Machine
end

