-- ==== Sys2Proof/Laws/Exec.lean ====
section
/-! SUPPORT. What `exec` is past the fault latch and the reentrancy check, command by command. -/

namespace Sys2Proof.Machine

/-- A latched fault stops every command (60_exceptions.md R143). -/
theorem exec_of_latched (i : Instr) {s : State} (h : s.latched = true) : exec i s = .next s := by
  cases i <;> exact State.unlessLatched_of_latched h _

/-- A fault is latched, or none is. -/
theorem State.latched_or_none (s : State) : s.latched = true ∨ s.fault = none := by
  cases h : s.latched
  · exact .inr ((State.not_latched_iff s).mp h)
  · exact .inl rfl

theorem exec_rb_inTrap {s : State} (hf : s.fault = none) (hi : s.inTrap = true) (a : Addr) :
    exec (.rb a) s = .next (s.raise (reentrantRecord .rb (firstWord (.rb a)))) := by
  rw [show exec (.rb a) s = execRb a s from rfl, execRb, State.unlessLatched_of_none hf, State.unlessInTrap_of_true hi]

theorem exec_wb_inTrap {s : State} (hf : s.fault = none) (hi : s.inTrap = true) (a : Addr) (v : Byte) :
    exec (.wb a v) s = .next (s.raise (reentrantRecord .wb (firstWord (.wb a v)))) := by
  rw [show exec (.wb a v) s = execWb a v s from rfl, execWb, State.unlessLatched_of_none hf, State.unlessInTrap_of_true hi]

theorem exec_rw_inTrap {s : State} (hf : s.fault = none) (hi : s.inTrap = true) (a : Addr) :
    exec (.rw a) s = .next (s.raise (reentrantRecord .rw (firstWord (.rw a)))) := by
  rw [show exec (.rw a) s = execRw a s from rfl, execRw, State.unlessLatched_of_none hf, State.unlessInTrap_of_true hi]

theorem exec_rb_body {s : State} (hf : s.fault = none) (hi : s.inTrap = false) (a : Addr) :
    exec (.rb a) s = readByteAt a s := by
  rw [show exec (.rb a) s = execRb a s from rfl, execRb, State.unlessLatched_of_none hf, State.unlessInTrap_of_false hi]

theorem exec_wb_body {s : State} (hf : s.fault = none) (hi : s.inTrap = false) (a : Addr) (v : Byte) :
    exec (.wb a v) s = writeByteAt a v s := by
  rw [show exec (.wb a v) s = execWb a v s from rfl, execWb, State.unlessLatched_of_none hf, State.unlessInTrap_of_false hi]

theorem exec_rw_body {s : State} (hf : s.fault = none) (hi : s.inTrap = false) (a : Addr) :
    exec (.rw a) s = readWordAt a s := by
  rw [show exec (.rw a) s = execRw a s from rfl, execRw, State.unlessLatched_of_none hf, State.unlessInTrap_of_false hi]

theorem exec_notify_body {s : State} (hf : s.fault = none) (k : RegIndex) (v : Byte) :
    exec (.notify k v) s = notify k v s := by
  rw [show exec (.notify k v) s = execNotify k v s from rfl, execNotify, State.unlessLatched_of_none hf]

theorem exec_copy_body {s : State} (hf : s.fault = none) (sb : BlockId) (sp : Position) (db : BlockId) (dp n : Position) :
    exec (.copy sb sp db dp n) s =
      .next (copyRange { srcBlk := sb, srcPos := sp, destBlk := db, destPos := dp, length := n } s) := by
  rw [show exec (.copy sb sp db dp n) s = execCopy sb sp db dp n s from rfl, execCopy, State.unlessLatched_of_none hf]

/-- RW's two paths (41_access.md R94). -/
theorem readWordAt_fast {a : Addr} (h : a.toNat % 1024 < 1023) (s : State) : readWordAt a s = readWordFast a s := by
  simp [readWordAt, Config.pageSize, h]

theorem readWordAt_split {a : Addr} (h : a.toNat % 1024 = 1023) (s : State) : readWordAt a s = readWordSplit a s := by
  simp [readWordAt, Config.pageSize, h]

/-- After a store below the paging registers nothing more happens (41_access.md R92). -/
theorem afterStore_low {a : Addr} (h : a.toNat < 0xFFFC) (v : Byte) (s : State) : afterStore a v s = .next s := by
  simp [afterStore, (isPagingAddr_false_iff a).mpr h]

/-- After a store to a paging register the notification follows (41_access.md R92). -/
theorem afterStore_high {a : Addr} {s : State} (hf : s.fault = none) (h : 0xFFFC ≤ a.toNat) (v : Byte) :
    afterStore a v s = exec (.notify (BitVec.ofNat 2 (a.toNat - 0xFFFC)) v) s := by
  rw [exec_notify_body hf, afterStore, if_pos ((isPagingAddr_iff a).mpr h), pagingIndex_eq h]

/-- RB where its byte is found. -/
theorem exec_rb_found {s : State} {a : Addr} {b : BlockId} {v : Byte} (hf : s.fault = none) (hi : s.inTrap = false)
    (hb : s.readMap[a.toNat / 1024]? = some (.bound b)) (hv : s.readByte b (a.toNat % 1024) = some v) :
    exec (.rb a) s = .next (s.respond (v.setWidth 32)) := by
  obtain ⟨n, hn, hlt⟩ := State.readByte_isSome_iff.mp ⟨v, hv⟩
  rw [exec_rb_body hf hi, readByteAt]
  simp only [pageOf_widen, offsetOf_widen]
  rw [State.check_ok (d := .r) hb hn (by omega)]
  simp only [State.blkGet_of_readByte hv]

/-- WB where its byte is found: the store, and what follows it. -/
theorem exec_wb_found {s : State} {a : Addr} {b : BlockId} {n : Nat} (v : Byte) (hf : s.fault = none)
    (hi : s.inTrap = false) (hb : s.writeMap[a.toNat / 1024]? = some (.bound b)) (hn : s.lenOf b = some n)
    (hlt : a.toNat % 1024 < n) : exec (.wb a v) s = afterStore a v (s.blkSet b (a.toNat % 1024) v) := by
  rw [exec_wb_body hf hi, writeByteAt]
  simp only [pageOf_widen, offsetOf_widen]
  rw [State.check_ok (d := .w) hb hn (by omega)]

/-- What `State.covers` says. -/
theorem State.covers_eq_true {s : State} {d : Dir} {p off need : Nat} :
    s.covers d p off need = true ↔
      ∃ b n, (s.mapOf d)[p]? = some (.bound b) ∧ s.lenOf b = some n ∧ off + need ≤ n := by
  unfold State.covers
  constructor
  · intro h
    split at h
    · cases h
    · rename_i b he
      split at h
      · cases h
      · rename_i n hl
        exact ⟨b, n, State.entry_eq_bound.mp he, hl, by simpa using h⟩
  · rintro ⟨b, n, hb, hl, hle⟩
    rw [State.entry_of_some hb]
    simp only [hl, decide_eq_true_eq]
    exact hle

/-- A notification that answers a next state ran one member of MAPPER's set (42_trap.md R110). -/
theorem notify_eq_next {s t : State} {k : RegIndex} {v : Byte} (h : notify k v s = .next t) :
    ∃ a, s.MayAnswer k v a ∧ ∃ (cs : List Command) (n : Nat), decodeAll a.words = some cs ∧
      t = (runAnswer cs { s with notifyLog := s.notifyLog ++ [{ k := k, v := v }], mapperState := a.next, inTrap := true, draws := n }).leaveTrap := by
  obtain ⟨a, ha, ⟨-, e⟩ | ⟨cs, n, hd, e⟩⟩ := notify_cases k v s <;> rw [e] at h <;> cases h
  exact ⟨a, ha, cs, n, hd, rfl⟩

/-- Only COPY changes a byte from inside an answer (42_trap.md R116). -/
theorem runNested_blocks {c : Command} (hc : ∀ sb sp db dp n, c ≠ .instr (.copy sb sp db dp n)) (s : State) :
    (runNested c s).blocks = s.blocks := by
  cases c with
  | reserved op w => rfl
  | instr i =>
    cases i with
    | copy sb sp db dp n => exact absurd rfl (hc sb sp db dp n)
    | bind d p b => exact (by unfold bindEntry; split <;> simp : (bindEntry d p b s).blocks = s.blocks)
    | resolve d p =>
      exact (by unfold resolveEntry; split; (· rfl); split <;> rfl : (resolveEntry d p s).blocks = s.blocks)
    | trans a => rfl
    | rb a => rfl
    | wb a v => rfl
    | rw a => rfl
    | reset => rfl
    | illegal w => rfl
    | notify k v => rfl

end Sys2Proof.Machine
end

