-- ==== Sys2Proof/Laws/PerInstr.lean ====
section
/-! SUPPORT. A family of statements with one lemma per command: the framing of 30_encoding.md R76 counts the words of every command. -/

namespace Sys2Proof.Laws.Framing

/-- A well-formed command has one word, and four more where the opcode is COPY's (30_encoding.md R76). -/
def Statement (i : Instr) : Prop := i.wf = true → (encode i).length = 1 + operandWords (firstWord i)

/-- The value of a word put together from two fields. -/
theorem toNat_fields {n m : Nat} (high : BitVec n) (low : BitVec m) :
    (high ++ low).toNat = high.toNat * 2 ^ m + low.toNat := by
  rw [BitVec.toNat_append, ← Nat.shiftLeft_add_eq_or_of_lt low.isLt, Nat.shiftLeft_eq]

/-- The opcode as a number (30_encoding.md R61). -/
theorem toNat_opcode (w : Word) : (opcode w).toNat = w.toNat / 2 ^ 28 := by
  have := w.isLt
  simp only [opcode, BitVec.extractLsb'_toNat, Nat.shiftRight_eq_div_pow]
  omega

theorem words_of_other {w : Word} (h : w.toNat / 2 ^ 28 ≠ 6) : operandWords w = 0 := by
  refine if_neg fun ho => h ?_
  rw [← toNat_opcode, ho]
  rfl

theorem words_of_copy {w : Word} (h : w.toNat / 2 ^ 28 = 6) : operandWords w = 4 :=
  if_pos (BitVec.eq_of_toNat_eq (by rw [toNat_opcode, h]; rfl))

theorem trans (addr : Addr) : Statement (.trans addr) := fun _ => by
  have e : (firstWord (.trans addr)).toNat = 0x0000 * 2 ^ 16 + addr.toNat := toNat_fields 0x0000#16 addr
  rw [words_of_other (by have := addr.isLt; omega)]
  rfl

theorem rb (addr : Addr) : Statement (.rb addr) := fun _ => by
  have e : (firstWord (.rb addr)).toNat = 0x1000 * 2 ^ 16 + addr.toNat := toNat_fields 0x1000#16 addr
  rw [words_of_other (by have := addr.isLt; omega)]
  rfl

theorem wb (addr : Addr) (data : Byte) : Statement (.wb addr data) := fun _ => by
  have e : (firstWord (.wb addr data)).toNat = (0x20#8 ++ data).toNat * 2 ^ 16 + addr.toNat := toNat_fields _ addr
  have e' := toNat_fields 0x20#8 data
  rw [words_of_other (by have := addr.isLt; have := data.isLt; simp only [BitVec.toNat_ofNat] at e'; omega)]
  rfl

theorem rw (addr : Addr) : Statement (.rw addr) := fun _ => by
  have e : (firstWord (.rw addr)).toNat = 0x3000 * 2 ^ 16 + addr.toNat := toNat_fields 0x3000#16 addr
  rw [words_of_other (by have := addr.isLt; omega)]
  rfl

theorem bind (dir : Dir) (page : Page) (blk : BlockId) : Statement (.bind dir page blk) := fun _ => by
  have e : (firstWord (.bind dir page blk)).toNat = _ := toNat_fields (0b0100000#7 ++ dir.bit ++ 0#2 ++ page) blk
  rw [toNat_fields, toNat_fields, toNat_fields] at e
  have := dir.bit.isLt
  rw [words_of_other (by have := page.isLt; have := blk.isLt; simp only [BitVec.toNat_ofNat] at e; omega)]
  rfl

theorem resolve (dir : Dir) (page : Page) : Statement (.resolve dir page) := fun _ => by
  have e : (firstWord (.resolve dir page)).toNat = _ := toNat_fields (0b0101000#7 ++ dir.bit ++ 0#2 ++ page) 0#16
  rw [toNat_fields, toNat_fields, toNat_fields] at e
  have := dir.bit.isLt
  rw [words_of_other (by have := page.isLt; simp only [BitVec.toNat_ofNat] at e; omega)]
  rfl

theorem copy (srcBlk : BlockId) (srcPos : Position) (destBlk : BlockId) (destPos length : Position) :
    Statement (.copy srcBlk srcPos destBlk destPos length) := fun _ => by
  have e : (firstWord (.copy srcBlk srcPos destBlk destPos length)).toNat = 0x6000 * 2 ^ 16 + srcBlk.toNat :=
    toNat_fields 0x6000#16 srcBlk
  rw [words_of_copy (by have := srcBlk.isLt; omega)]
  rfl

theorem reset : Statement .reset := fun _ => by decide

theorem illegal (word : Word) : Statement (.illegal word) := fun h => by
  have h' : word.getLsbD 31 = true := h
  have hm := BitVec.toNat_ge_of_msb_true (x := word) (by simpa [BitVec.msb_eq_getLsbD_last] using h')
  rw [words_of_other (w := firstWord (.illegal word)) (by simp only [firstWord, encode, List.headD_cons]; omega)]
  rfl

theorem notify (k : RegIndex) (v : Byte) : Statement (.notify k v) := fun _ => by
  have e : (firstWord (.notify k v)).toNat = (0#22 ++ k).toNat * 2 ^ 8 + v.toNat := toNat_fields _ v
  have e' := toNat_fields 0#22 k
  rw [words_of_other (by have := k.isLt; have := v.isLt; simp only [BitVec.toNat_ofNat] at e'; omega)]
  rfl

end Sys2Proof.Laws.Framing
end

