-- ==== Sys2Proof/Laws/Step.lean ====
section
/-! SUPPORT. The framing of request streams, and everything a step can do, said once. -/

namespace Sys2Proof

/-- A whole prefix leaves the framing of the rest as it is. -/
theorem wholeFrom_append {n : Nat} {a : List Word} (h : wholeFrom n a = true) (b : List Word) :
    wholeFrom n (a ++ b) = wholeFrom 0 b := by
  induction a generalizing n with
  | nil => cases n <;> simp_all [wholeFrom]
  | cons w t ih => cases n <;> simp only [wholeFrom, List.cons_append] at h ⊢ <;> exact ih h

/-- Framing goes command by command (30_encoding.md R76). -/
theorem wholeFrom_decode (w : Word) (rest : List Word) :
    wholeFrom 0 (w :: rest) =
      match decode (w :: rest) with
      | .command _ r => wholeFrom 0 r
      | .empty => false
      | .truncatedCopy => false := by
  have hne : ∀ o : BitVec 4, o ≠ 6#4 → Mnemonic.ofOpcode o ≠ .copy := by decide
  simp only [wholeFrom]
  by_cases ho : opcode w = 6#4
  · simp only [operandWords, ho, decode, Mnemonic.ofOpcode]
    rcases rest with _ | ⟨a, _ | ⟨b, _ | ⟨c, _ | ⟨d, t⟩⟩⟩⟩ <;> simp [wholeFrom]
  · have := hne _ ho
    simp only [operandWords, ho, if_false, decode]

/-- A command takes at least one word. -/
theorem decode_rest_length {ws rest : List Word} {c : Command} (h : decode ws = .command c rest) :
    rest.length < ws.length := by
  cases ws with
  | nil => simp [decode] at h
  | cons w t =>
    simp only [decode] at h
    split at h
    · split at h
      · cases h; simp; omega
      · cases h
    · cases h; simp

end Sys2Proof

namespace Sys2Proof.Machine

/-- Everything a step can do: refuse an incomplete stream, leave the state alone, run the command at the head, or raise ReservedFieldNonzero for it. -/
theorem step_cases (s : State) :
    (step s = .refused .truncatedCopy ∧ wholeStream s.requests = false) ∨
    (step s = .next s ∧ wholeStream s.requests = true ∧ (s.requests = [] ∨ s.latched = true)) ∨
    (∃ i rest, step s = exec i { s with requests := rest } ∧ wholeStream s.requests = true ∧ s.fault = none ∧
      decode s.requests = .command (.instr i) rest) ∨
    (∃ op w rest, step s = .next ({ s with requests := rest } |>.raise { code := .reservedFieldNonzero, op := op, word := w }) ∧
      wholeStream s.requests = true ∧ s.fault = none ∧ decode s.requests = .command (.reserved op w) rest) := by
  cases hw : wholeStream s.requests
  · exact .inl ⟨by simp [step, State.fetch, hw], rfl⟩
  rcases s.latched_or_none with hl | hf
  · exact .inr (.inl ⟨by simp [step, State.fetch, hw, hl], rfl, .inr hl⟩)
  have hl := (State.not_latched_iff s).mpr hf
  cases hr : s.requests with
  | nil => exact .inr (.inl ⟨by simp [step, State.fetch, hr, wholeStream, wholeFrom, hl, decode], rfl, .inl rfl⟩)
  | cons w t =>
    cases hd : decode (w :: t) with
    | empty =>
      have hq := wholeFrom_decode w t
      rw [hd, ← hr] at hq
      exact absurd (hw.symm.trans hq) (by simp)
    | truncatedCopy =>
      have hq := wholeFrom_decode w t
      rw [hd, ← hr] at hq
      exact absurd (hw.symm.trans hq) (by simp)
    | command c rest =>
      rw [hr] at hw
      cases c with
      | instr i =>
        exact .inr (.inr (.inl ⟨i, rest, by simp [step, State.fetch, hr, hw, hl, hd], rfl, hf, rfl⟩))
      | reserved op w' =>
        refine .inr (.inr (.inr ⟨op, w', rest, ?_, rfl, hf, rfl⟩))
        simp only [step, State.fetch, hr, hw, hl, hd, Bool.not_true, Bool.false_eq_true, if_false]
        exact State.unlessLatched_of_none (s := { s with requests := rest }) hf _

end Sys2Proof.Machine
end

