-- ==== Sys2Proof/Tests/Slice0.lean ====
section
/-! SUPPORT. Tests of the model's own text and witnesses for the hypotheses of the statements. The values of the tests named `vector` are those of spec 95_test_vectors.md. -/

namespace Sys2Proof.Machine.Test

/-! ## Small states -/

/-- The blocks the tests use: 0 and 1 of 1024 bytes, 2 of 1023, 3 of 512, 4 empty, 5 of five bytes. -/
def arena : List Block :=
  [{ len := 1024, mem := [(0, 0x12#8), (0x3FE, 0x34#8), (0x3FF, 0xCD#8)] },
    { len := 1024, mem := [(0, 0xAB#8), (0x3FC, 0x44#8)] },
    { len := 1023, mem := [(1022, 0x77#8)] },
    { len := 512, mem := [(0x1FF, 0x9C#8)] },
    { len := 0, mem := [] },
    { len := 5, mem := [(0, 1#8), (1, 2#8), (2, 3#8), (3, 4#8), (4, 5#8)] }]

/-- A session of that arena after some BINDs. -/
def machine (m : Mode) (reads writes : List (Page × BlockId)) (rows : List MapperRow := [])
    (unlisted : Unlisted := .nothing) : State :=
  let start := State.launch { mode := m, blocks := arena, mapper := { rows := rows, unlisted := unlisted }, mapperState := 0 }
  let read := reads.foldl (fun s e => s.setEntry .r e.1 (.bound e.2)) start
  writes.foldl (fun s e => s.setEntry .w e.1 (.bound e.2)) read

/-- The state inside a notification. -/
def inside (s : State) : State := { s with inTrap := true }

/-- The state with a fault latched. -/
def faulted (s : State) : State :=
  { s with fault := some { code := .illegalCommand, op := .illegal, word := 0x80000000#32 } }

/-- The outcome is a next state with this property. -/
def nextIs (o : Host.Outcome State Fault Refusal) (p : State → Bool) : Bool :=
  match o with
  | .next t => p t
  | .fault _ => false
  | .refused _ => false

/-- The words answered so far. -/
def answered (s : State) : List Word := s.responses.map Response.word

/-- The number of the latched fault, 0 for none (60_exceptions.md R140). -/
def faultNumber (s : State) : Nat :=
  match s.fault with
  | none => 0
  | some r => r.code.number

/-- The bytes of a block. -/
def bytesOf (s : State) (b : BlockId) : List (Option Byte) :=
  (List.range ((s.lenOf b).getD 0)).map fun i => s.readByte b i

/-- The notifications so far. -/
def notified (s : State) : List (RegIndex × Byte) := s.notifyLog.map fun n => (n.k, n.v)

/-- A mapper's row for any page table. -/
def rowFor (k : RegIndex) (v : Byte) (answer : List Word) : MapperRow :=
  { state := 0, k := k, v := v, table := none, next := 1, answer := answer }

/-! ## Well-formedness -/

theorem test_wellFormed_refuses_low_illegal_word : Instr.wf (.illegal 0x70000001#32) = false := by decide

theorem test_wellFormed_takes_illegal_word : Instr.wf (.illegal 0x80000000#32) = true := by decide

theorem test_wellFormed_refuses_notification_request : Instr.wfRequest (.notify 1#2 0#8) = false := by decide

theorem test_memory_form_refuses_unsorted : Memory.wf 8 [(3, 1#8), (2, 1#8)] = false := by decide

theorem test_memory_form_refuses_listed_zero : Memory.wf 8 [(3, 0#8)] = false := by decide

theorem test_memory_form_refuses_index_past_the_end : Memory.wf 8 [(8, 1#8)] = false := by decide

theorem test_reset_memory_form : State.reset.blocks.all Block.wf = true ∧ State.reset.wf = true := by decide

theorem test_launch_refuses_empty_arena :
    Launch.wf { mode := .debug, blocks := [], mapper := { rows := [], unlisted := .nothing }, mapperState := 0 } = false := by decide

theorem test_launch_refuses_truncated_answer :
    Launch.wf { mode := .debug, blocks := arena, mapper := { rows := [rowFor 0#2 0#8 [0x60000000#32]], unlisted := .relation 0 }, mapperState := 0 } = false := by
  decide

theorem test_state_refuses_entry_outside_arena : (machine .debug [(0#6, 6#16)] []).wf = false := by decide

theorem test_state_refuses_inTrap_without_fault : (inside (machine .debug [] [])).wf = false := by decide

/-! ## Decoding, from the layouts of 30_encoding.md -/

/-- R64: opcode 0x0, addr 15:0. -/
theorem test_decode_trans :
    decode [0b0000_000000000000_1000000100100011#32] = .command (.instr (.trans 0x8123#16)) [] := by decide

/-- R65: opcode 0x1, addr 15:0. -/
theorem test_decode_rb :
    decode [0b0001_000000000000_0000000111111111#32] = .command (.instr (.rb 0x01FF#16)) [] := by decide

/-- R66: opcode 0x2, data 23:16, addr 15:0. -/
theorem test_decode_wb :
    decode [0b0010_0000_10100101_1111111111111100#32] = .command (.instr (.wb 0xFFFC#16 0xA5#8)) [] := by decide

/-- R67: opcode 0x3, addr 15:0. -/
theorem test_decode_rw :
    decode [0b0011_000000000000_0000001111111110#32] = .command (.instr (.rw 0x03FE#16)) [] := by decide

/-- R68: opcode 0x4, dir 24, page 21:16, blk 15:0. -/
theorem test_decode_bind :
    decode [0b0100_000_1_00_111111_1111111111111111#32] = .command (.instr (.bind .w 63#6 0xFFFF#16)) [] ∧
    decode [0b0100_000_0_00_000101_0000000000000011#32] = .command (.instr (.bind .r 5#6 3#16)) [] := by decide

/-- R69: opcode 0x5, dir 24, page 21:16. -/
theorem test_decode_resolve :
    decode [0b0101_000_0_00_000101_0000000000000000#32] = .command (.instr (.resolve .r 5#6)) [] ∧
    decode [0b0101_000_1_00_000101_0000000000000000#32] = .command (.instr (.resolve .w 5#6)) [] := by decide

/-- R70: opcode 0x6, srcBlk; destBlk; srcPos; destPos; length. -/
theorem test_decode_copy :
    decode [0x60000007#32, 0x00000009#32, 0xFFFFFFFF#32, 0x80000001#32, 3#32, 0x70000000#32] =
      .command (.instr (.copy 7#16 0xFFFFFFFF#32 9#16 0x80000001#32 3#32)) [0x70000000#32] := by decide

/-- R71: opcode 0x7. -/
theorem test_decode_reset : decode [0b0111_0000000000000000000000000000#32] = .command (.instr .reset) [] := by decide

/-- R74: opcodes 0x8 and 0xF. -/
theorem test_decode_illegal :
    decode [0x80000000#32] = .command (.instr (.illegal 0x80000000#32)) [] ∧
    decode [0xFFFFFFFF#32] = .command (.instr (.illegal 0xFFFFFFFF#32)) [] := by decide

/-- R72: k 9:8, v 7:0, zero above. -/
theorem test_decode_notification :
    decodeNotification 0b0000000000000000000000_10_00000101#32 = some (.notify 2#2 5#8) ∧
    decodeNotification 0x00000400#32 = none := by decide

/-- R75: one reserved bit of each layout. -/
theorem test_decode_reserved_bits :
    decode [0x00010000#32] = .command (.reserved .trans 0x00010000#32) [] ∧
    decode [0x18000000#32] = .command (.reserved .rb 0x18000000#32) [] ∧
    decode [0x21000000#32] = .command (.reserved .wb 0x21000000#32) [] ∧
    decode [0x30010000#32] = .command (.reserved .rw 0x30010000#32) [] ∧
    decode [0x40400000#32] = .command (.reserved .bind 0x40400000#32) [] ∧
    decode [0x50000001#32] = .command (.reserved .resolve 0x50000001#32) [] ∧
    decode [0x60010000#32, 0#32, 0#32, 0#32, 0#32] = .command (.reserved .copy 0x60010000#32) [] ∧
    decode [0x60000000#32, 0x00010000#32, 0#32, 0#32, 0#32] = .command (.reserved .copy 0x60000000#32) [] ∧
    decode [0x70000001#32] = .command (.reserved .reset 0x70000001#32) [] := by decide

/-- R76: a COPY that lacks its last operand word. -/
theorem test_decode_truncated_copy : decode [0x60000000#32, 0#32, 0#32, 0#32] = .truncatedCopy := by decide

/-- The layouts of R64-R71 and R74 share no word. -/
theorem test_layouts_share_no_word :
    [Mnemonic.trans, .rb, .wb, .rw, .bind, .resolve, .copy, .reset, .illegal].Pairwise
      (fun a b => a.pattern &&& (a.mask &&& b.mask) ≠ b.pattern &&& (a.mask &&& b.mask)) := by decide

/-- The table numbers a COPY's five words from its first word's bit 0 on. -/
theorem test_decodeTableWord :
    decodeTableWord 32 0x100001FF = some (.rb 0x01FF#16) ∧
    decodeTableWord 160 (0x60000001 + 2 * 2 ^ 32 + 3 * 2 ^ 64 + 4 * 2 ^ 96 + 5 * 2 ^ 128) =
      some (.copy 1#16 3#32 2#16 4#32 5#32) ∧
    decodeTableWord 32 0x60000001 = some (.copy 1#16 0#32 0#16 0#32 0#32) ∧
    decodeTableWord 32 0x00010000 = none := by decide

/-- A placed word is what the next step runs (log entry 22). -/
theorem test_withFetchWord_runs_first :
    nextIs (step (State.reset.withFetchWord 32 0x00008123)) (fun t => answered t == [0x00008123#32]) = true := by decide

/-! ## The assembler -/

/-- R78, R79: a line of text, a comment, and a pseudo-instruction, with the words of R66. -/
theorem test_assemble_text :
    assembleWords ["BIND W, 7, 2 ; bank".toList, "".toList, "WW 0x0002, 0x7F00".toList] =
      some [0x41070002#32, 0x20000002#32, 0x207F0003#32] := by decide

/-- R78: an operand that does not fit is refused; R79: WW at 0xFFFF is refused. -/
theorem test_assemble_refuses :
    assemble (.rb 0x10000) = none ∧ assemble (.bind .r 64 0) = none ∧ assemble (.ww 0xFFFF 0) = none ∧
      parseLine "RB 12G".toList = none := by decide

/-! ## One step of each command -/

/-- 95_test_vectors.md 2.1. -/
theorem test_trans_vector :
    nextIs (exec (.trans 0xFFFF#16) (machine .debug [] [])) (fun t => answered t == [0x0000FFFF#32] && !t.latched) = true := by
  decide

/-- 95_test_vectors.md 2.2, steps 2 and 6. -/
theorem test_bind_vector :
    nextIs (exec (.bind .r 5#6 3#16) (machine .debug [] []))
      (fun t => t.entry .r 5 == .bound 3#16 && t.entry .w 5 == .absent) = true ∧
    nextIs (exec (.bind .r 0#6 6#16) (machine .release [] [])) (fun t => faultNumber t == 5 && t.entry .r 0 == .absent) = true := by
  decide

/-- 95_test_vectors.md 2.2, steps 1, 3 and 4. -/
theorem test_resolve_vector :
    nextIs (exec (.resolve .r 5#6) (machine .debug [(5#6, 3#16)] [])) (fun t => answered t == [0x00010003#32]) = true ∧
    nextIs (exec (.resolve .w 5#6) (machine .debug [(5#6, 3#16)] [])) (fun t => faultNumber t == 1) = true ∧
    nextIs (exec (.resolve .r 5#6) (machine .release [] [])) (fun t => answered t == [0#32] && !t.latched) = true := by decide

/-- 95_test_vectors.md 2.3, first row: block 3 is its block 0. -/
theorem test_rb_vector :
    nextIs (exec (.rb 0x01FF#16) (machine .debug [(0#6, 3#16)] [])) (fun t => answered t == [0x0000009C#32]) = true := by
  decide

/-- 95_test_vectors.md 2.3, second and third rows. -/
theorem test_rb_faults_vector :
    nextIs (exec (.rb 0x0200#16) (machine .debug [(0#6, 3#16)] []))
      (fun t => faultNumber t == 2 && t.fault.map FaultRecord.need == some (some 1)) = true ∧
    nextIs (exec (.rb 0x0400#16) (machine .debug [(0#6, 3#16)] []))
      (fun t => faultNumber t == 1 && t.fault.map FaultRecord.page == some (some 1)) = true := by decide

/-- 95_test_vectors.md 2.4, second row. -/
theorem test_wb_vector :
    nextIs (exec (.wb 0xFFFC#16 0xA5#8) (machine .debug [] [(63#6, 0#16)]))
      (fun t => t.readByte 0#16 1020 == some 0xA5#8 && notified t == [(0#2, 0xA5#8)] &&
        t.notificationWords == [0x000000A5#32] && !t.inTrap) = true := by decide

/-- 95_test_vectors.md 2.4: writeMap[63] Absent, Release and Debug (42_trap.md R115). -/
theorem test_wb_failed_store_vector :
    nextIs (exec (.wb 0xFFFF#16 0x80#8) (machine .release [] []))
      (fun t => t.blocks == arena && notified t == [(3#2, 0x80#8)]) = true ∧
    nextIs (exec (.wb 0xFFFC#16 0xA5#8) (machine .debug [] []))
      (fun t => t.blocks == arena && notified t == [] && faultNumber t == 1) = true := by decide

/-- 95_test_vectors.md 2.5, third and fourth rows. -/
theorem test_rw_split_vector :
    nextIs (exec (.rw 0x03FF#16) (machine .debug [(0#6, 0#16), (1#6, 1#16)] [])) (fun t => answered t == [0x0000ABCD#32]) = true ∧
    nextIs (exec (.rw 0x03FF#16) (machine .debug [(0#6, 0#16), (1#6, 0#16)] [])) (fun t => answered t == [0x000012CD#32]) = true := by
  decide

/-- 95_test_vectors.md 2.5: offset 1022 of a block of 1023 bytes, and page 64. -/
theorem test_rw_faults_vector :
    nextIs (exec (.rw 0x03FE#16) (machine .debug [(0#6, 2#16)] []))
      (fun t => faultNumber t == 2 && t.fault.map FaultRecord.need == some (some 2)) = true ∧
    nextIs (exec (.rw 0xFFFF#16) (machine .debug [(63#6, 0#16)] []))
      (fun t => faultNumber t == 1 && t.fault.map FaultRecord.page == some (some 64)) = true := by decide

/-- V-COPY-2 and V-COPY-3 of 95_test_vectors.md. -/
theorem test_copy_overlap_vector :
    nextIs (exec (.copy 5#16 0#32 5#16 2#32 3#32) (machine .debug [] []))
      (fun t => bytesOf t 5#16 == [some 1#8, some 2#8, some 1#8, some 2#8, some 3#8]) = true ∧
    nextIs (exec (.copy 5#16 2#32 5#16 0#32 3#32) (machine .debug [] []))
      (fun t => bytesOf t 5#16 == [some 5#8, some 4#8, some 5#8, some 4#8, some 5#8]) = true := by decide

/-- V-COPY-6, V-COPY-9 and V-COPY-5 of 95_test_vectors.md. -/
theorem test_copy_checks_vector :
    nextIs (exec (.copy 5#16 3#32 5#16 4#32 2#32) (machine .debug [] [])) (fun t => faultNumber t == 2 && t.blocks == arena) = true ∧
    nextIs (exec (.copy 0#16 0#32 6#16 0#32 1#32) (machine .release [] [])) (fun t => faultNumber t == 5) = true ∧
    nextIs (exec (.copy 5#16 100#32 5#16 200#32 0#32) (machine .debug [] [])) (fun t => !t.latched && t.blocks == arena) = true := by
  decide

/-- V-RST-1 of 95_test_vectors.md. -/
theorem test_reset_vector :
    nextIs (exec .reset (machine .debug [(0#6, 1#16)] [(0#6, 1#16)]))
      (fun t => t.entry .r 0 == .absent && t.entry .w 0 == .absent && t.blocks == arena) = true := by decide

/-- 95_test_vectors.md 2.8. -/
theorem test_illegal_vector :
    nextIs (exec (.illegal 0x80000000#32) (machine .release [] []))
      (fun t => faultNumber t == 3 && t.fault.map FaultRecord.word == some 0x80000000#32) = true := by decide

/-- V-RE-1 of 95_test_vectors.md: the byte and the log stay, inTrap stays true. -/
theorem test_notification_reentrant_vector :
    nextIs (exec (.wb 0xFFFC#16 7#8) (machine .debug [(63#6, 0#16)] [(63#6, 0#16)] [rowFor 0#2 7#8 [0x10000000#32]]))
      (fun t => t.readByte 0#16 1020 == some 7#8 && notified t == [(0#2, 7#8)] && faultNumber t == 6 && t.inTrap) = true := by
  decide

/-- No answer of the mapper of State.reset is written out (00_scope.md R11). -/
theorem test_reset_mapper_is_any_relation :
    State.reset.mapper.unlisted = .relation 0 ∧ State.reset.listedAnswers 1#2 0#8 = [] := by decide

/-- V-RE-3 of 95_test_vectors.md: BIND R, 2, 0 and COPY 0, 0, 0, 1, 1. -/
theorem test_notification_bind_copy_vector :
    nextIs (exec (.notify 0#2 7#8) (machine .debug [] []
        [rowFor 0#2 7#8 [0x40020000#32, 0x60000000#32, 0#32, 0#32, 1#32, 1#32]]))
      (fun t => t.entry .r 2 == .bound 0#16 && t.readByte 0#16 1 == some 0x12#8 && !t.latched && !t.inTrap && t.mapperState == 1) = true := by
  decide

/-! ## Witnesses: a state and operands that meet the hypotheses of each statement -/

/-- Page 0 reads a block of 1025 bytes. -/
def longState : State :=
  { machine .debug [(0#6, 0#16), (1#6, 0#16)] [] with blocks := [{ len := 1025, mem := [(1024, 1#8)] }] }

/-- The same with another byte at index 1024. -/
def longBlocks : List Block := [{ len := 1025, mem := [(1024, 2#8)] }]

theorem witness_BytesAbove1023AreNeverRead_blocks :
    (∀ b : BlockId, ({ longState with blocks := longBlocks } : State).lenOf b = longState.lenOf b) ∧
    (∀ (b : BlockId) (j : Nat), j < 1024 →
      ({ longState with blocks := longBlocks } : State).readByte b j = longState.readByte b j) := by
  constructor
  · intro b
    cases h : b.toNat <;> simp [State.lenOf, longState, longBlocks, h]
  · intro b j hj
    cases h : b.toNat <;> simp [State.readByte, longState, longBlocks, h, Memory.read, show 1024 ≠ j by omega]

theorem witness_DecodeOfEncodeIsTheCommand :
    [Instr.trans 0xFFFF#16, .rb 0xFFFF#16, .wb 0xFFFF#16 0xFF#8, .rw 0xFFFF#16, .bind .w 63#6 0xFFFF#16, .resolve .w 63#6,
      .copy 0xFFFF#16 0xFFFFFFFF#32 0xFFFF#16 0xFFFFFFFF#32 0xFFFFFFFF#32, .reset, .illegal 0x80000000#32].all Instr.wfRequest = true := by decide

theorem witness_EncodeOfDecodeIsTheWords :
    decode [0x6000FFFF#32, 0x0000FFFF#32, 1#32, 2#32, 3#32, 0x10000000#32] =
      .command (.instr (.copy 0xFFFF#16 1#32 0xFFFF#16 2#32 3#32)) [0x10000000#32] := by decide

/-- One word for each row, every operand bit set. -/
theorem witness_LayoutsAsTabled :
    0x0000FFFF#32 &&& 0xFFFF0000#32 = 0x00000000#32 ∧ 0x1000FFFF#32 &&& 0xFFFF0000#32 = 0x10000000#32 ∧
    0x20FFFFFF#32 &&& 0xFF000000#32 = 0x20000000#32 ∧ 0x3000FFFF#32 &&& 0xFFFF0000#32 = 0x30000000#32 ∧
    0x413FFFFF#32 &&& 0xFEC00000#32 = 0x40000000#32 ∧ 0x4000FFFF#32 &&& 0xFEC00000#32 = 0x40000000#32 ∧
    0x513F0000#32 &&& 0xFEC0FFFF#32 = 0x50000000#32 := by decide

theorem witness_CopyLayoutAsTabled :
    0x6000FFFF#32 &&& 0xFFFF0000#32 = 0x60000000#32 ∧ 0x0000FFFF#32 &&& 0xFFFF0000#32 = 0#32 := by decide

theorem witness_IllegalOpcodeRaisesIllegalCommand :
    8 ≤ (0x80000000#32).toNat / 2 ^ 28 ∧ 8 ≤ (0xFFFFFFFF#32).toNat / 2 ^ 28 ∧
    (machine .debug [] []).fault = none := by decide

/-- A word for each row. -/
theorem witness_ReservedBitRaisesReservedFieldNonzero_word :
    [(0, 0xFFFF0000#32, 0x00000000#32, 0x00010000#32), (1, 0xFFFF0000#32, 0x10000000#32, 0x18000000#32),
      (2, 0xFF000000#32, 0x20000000#32, 0x21000000#32), (3, 0xFFFF0000#32, 0x30000000#32, 0x30010000#32),
      (4, 0xFEC00000#32, 0x40000000#32, 0x40400000#32), (5, 0xFEC0FFFF#32, 0x50000000#32, 0x50000001#32),
      (7, 0xFFFFFFFF#32, 0x70000000#32, 0x70000001#32)].all
        (fun (r : Nat × Word × Word × Word) =>
          decide (r.2.2.2.toNat / 2 ^ 28 = r.1) && decide (r.2.2.2 &&& r.2.1 ≠ r.2.2.1)) = true := by decide

theorem witness_ReservedBitRaisesReservedFieldNonzero_copy :
    (0x60010000#32).toNat / 2 ^ 28 = 6 ∧
    0x60010000#32 &&& 0xFFFF0000#32 ≠ 0x60000000#32 ∧ (0x60000000#32).toNat / 2 ^ 28 = 6 ∧
    0x00010000#32 &&& 0xFFFF0000#32 ≠ 0#32 := by decide

theorem witness_TruncatedCopyStreamIsRefused :
    (∀ i ∈ [Instr.rb 0#16], i.wfRequest = true) ∧ (0x60000000#32).toNat / 2 ^ 28 = 6 ∧ [0#32, 0#32, 0#32].length < 4 ∧
    ({ machine .debug [] [] with requests := [0x10000000#32, 0x60000000#32, 0#32, 0#32, 0#32] } : State).requests =
      [Instr.rb 0#16].flatMap encode ++ 0x60000000#32 :: [0#32, 0#32, 0#32] := by decide

theorem witness_EncodedStreamDecodesToItsCommands :
    ∀ i ∈ [Instr.copy 0#16 2#32 0#16 0#32 3#32, .illegal 0xFFFFFFFF#32, .reset], i.wfRequest = true := by decide

theorem witness_PseudoInstructionExpansions :
    0xFFFE < 0xFFFF ∧ 0xFFFF < 2 ^ 16 ∧ 63 < 64 := by decide

theorem witness_SessionStartIsWellFormed :
    Launch.wf { mode := .release, blocks := arena, mapper := { rows := [rowFor 0#2 0#8 [0x70000000#32]], unlisted := .relation 3 }, mapperState := 7 } = true := by decide

theorem witness_StepRunsTheDecodedCommand :
    ({ machine .debug [] [] with requests := [0x1000FFFF#32, 0x70000000#32] } : State).fault = none ∧
    wholeStream [0x1000FFFF#32, 0x70000000#32] = true ∧
    decode [0x1000FFFF#32, 0x70000000#32] = .command (.instr (.rb 0xFFFF#16)) [0x70000000#32] ∧
    decode [0x70000001#32] = .command (.reserved .reset 0x70000001#32) [] ∧ wholeStream [0x70000001#32] = true := by decide

theorem witness_NoRequestLeavesTheStateAlone :
    State.reset.requests = [] := by decide

theorem witness_LatchedFaultStopsEverything :
    (faulted (machine .debug [] [])).fault = some { code := .illegalCommand, op := .illegal, word := 0x80000000#32 } ∧
    wholeStream (faulted (machine .debug [] [])).requests = true ∧ nextIs (step (faulted (machine .debug [] []))) (fun _ => true) = true := by decide

/-- Also of StepKeepsLaunchParameters and StepConsumesRequestsAndOnlyAppends. -/
theorem witness_StepKeepsStateWellFormed :
    ({ machine .debug [] [(63#6, 0#16)] [rowFor 0#2 7#8 [0x40020000#32]] with requests := [0x2007FFFC#32] } : State).wf = true ∧
    nextIs (step { machine .debug [] [(63#6, 0#16)] [rowFor 0#2 7#8 [0x40020000#32]] with requests := [0x2007FFFC#32] })
      (fun t => t.entry .r 2 == .bound 0#16 && t.wf) = true := by decide

theorem witness_WellFormedStateAlwaysSteps :
    ({ machine .debug [(0#6, 0#16)] [] with requests := [0x10000000#32] } : State).wf = true ∧ wholeStream [0x10000000#32] = true := by decide

theorem witness_TransAnswersPageAndOffset :
    (machine .debug [] []).fault = none ∧ (faulted (machine .debug [] [])).fault ≠ none := by decide

theorem witness_ResolveAnswersTheEntry :
    (machine .debug [(63#6, 5#16)] []).fault = none ∧ ((machine .debug [(63#6, 5#16)] []).mapOf .r)[(63#6).toNat]? = some (.bound 5#16) ∧
    ((machine .debug [] []).mapOf .w)[(63#6).toNat]? = some .absent ∧ (machine .debug [] []).mode = .debug ∧
    ((machine .release [] []).mapOf .w)[(0#6).toNat]? = some .absent ∧ (machine .release [] []).mode = .release ∧ (machine .release [] []).fault = none := by decide

theorem witness_BindInstallsTheBlock :
    (machine .debug [] []).fault = none ∧ (5#16).toNat < (machine .debug [] []).blocks.length ∧ (machine .debug [] []).blocks.length ≤ (6#16).toNat := by decide

theorem witness_RebindTakesEffectAtOnce :
    (machine .debug [(0#6, 1#16)] [(63#6, 1#16)]).fault = none ∧ (0#16).toNat < (machine .debug [(0#6, 1#16)] [(63#6, 1#16)]).blocks.length ∧
    nextIs (exec (.bind .r 0#6 0#16) (machine .debug [(0#6, 1#16)] [(63#6, 1#16)])) (fun _ => true) = true ∧
    nextIs (exec (.bind .w 63#6 0#16) (machine .debug [(0#6, 1#16)] [(63#6, 1#16)])) (fun _ => true) = true ∧
    (machine .debug [(0#6, 1#16)] [(63#6, 1#16)]).inTrap = false ∧ (0x03FF#16).toNat / 1024 = (0#6).toNat ∧
    (machine .debug [(0#6, 1#16)] [(63#6, 1#16)]).readByte 0#16 ((0x03FF#16).toNat % 1024) = some 0xCD#8 ∧
    (0xFFFB#16).toNat / 1024 = (63#6).toNat ∧ (0xFFFB#16).toNat < 0xFFFC ∧
    (machine .debug [(0#6, 1#16)] [(63#6, 1#16)]).readByte 0#16 ((0xFFFB#16).toNat % 1024) = some 0#8 := by decide

theorem witness_RbAnswersTheBoundByte_found :
    (machine .debug [(0#6, 0#16)] []).fault = none ∧ (machine .debug [(0#6, 0#16)] []).inTrap = false ∧
    (machine .debug [(0#6, 0#16)] []).readMap[(0x03FF#16).toNat / 1024]? = some (.bound 0#16) ∧
    (machine .debug [(0#6, 0#16)] []).readByte 0#16 ((0x03FF#16).toNat % 1024) = some 0xCD#8 ∧
    (inside (machine .debug [] [])).fault = none ∧ (inside (machine .debug [] [])).inTrap = true := by decide

theorem witness_RbAnswersTheBoundByte_short :
    [Mode.debug, .release].all (fun m =>
      decide ((machine m [(0#6, 2#16)] []).readMap[(0x03FF#16).toNat / 1024]? = some (.bound 2#16)) &&
      decide ((machine m [(0#6, 2#16)] []).lenOf 2#16 = some 1023) && decide (1023 ≤ (0x03FF#16).toNat % 1024) &&
      decide ((machine m [(0#6, 2#16)] []).mode = m) && decide ((machine m [(0#6, 2#16)] []).inTrap = false) &&
      decide ((machine m [(0#6, 2#16)] []).fault = none)) = true := by decide

theorem witness_RbAnswersTheBoundByte_absent :
    [Mode.debug, .release].all (fun m =>
      decide ((machine m [] []).readMap[(0xFFFF#16).toNat / 1024]? = some .absent) && decide ((machine m [] []).mode = m) &&
      decide ((machine m [] []).inTrap = false) && decide ((machine m [] []).fault = none)) = true := by decide

theorem witness_WbStoresThenNotifies_found :
    (machine .debug [] [(63#6, 0#16)]).fault = none ∧ (machine .debug [] [(63#6, 0#16)]).inTrap = false ∧
    (machine .debug [] [(63#6, 0#16)]).writeMap[(0xFFFB#16).toNat / 1024]? = some (.bound 0#16) ∧
    (machine .debug [] [(63#6, 0#16)]).writeMap[(0xFFFC#16).toNat / 1024]? = some (.bound 0#16) ∧
    (machine .debug [] [(63#6, 0#16)]).lenOf 0#16 = some 1024 ∧ (0xFFFF#16).toNat % 1024 < 1024 ∧ (0xFFFB#16).toNat < 0xFFFC ∧
    0xFFFC ≤ (0xFFFC#16).toNat ∧ (inside (machine .debug [] [(63#6, 0#16)])).inTrap = true := by decide

theorem witness_WbStoresThenNotifies_short :
    [Mode.debug, .release].all (fun m =>
      decide ((machine m [] [(0#6, 2#16), (63#6, 2#16)]).writeMap[(0x03FF#16).toNat / 1024]? = some (.bound 2#16)) &&
      decide ((machine m [] [(0#6, 2#16), (63#6, 2#16)]).writeMap[(0xFFFF#16).toNat / 1024]? = some (.bound 2#16)) &&
      decide ((machine m [] [(0#6, 2#16), (63#6, 2#16)]).lenOf 2#16 = some 1023) && decide (1023 ≤ (0x03FF#16).toNat % 1024) &&
      decide (1023 ≤ (0xFFFF#16).toNat % 1024) && decide ((machine m [] [(0#6, 2#16), (63#6, 2#16)]).mode = m) &&
      decide ((machine m [] [(0#6, 2#16), (63#6, 2#16)]).fault = none) &&
      decide ((machine m [] [(0#6, 2#16), (63#6, 2#16)]).inTrap = false)) = true := by decide

theorem witness_WbStoresThenNotifies_absent :
    [Mode.debug, .release].all (fun m =>
      decide ((machine m [] []).writeMap[(0xFFFB#16).toNat / 1024]? = some .absent) &&
      decide ((machine m [] []).writeMap[(0xFFFC#16).toNat / 1024]? = some .absent) && decide ((machine m [] []).mode = m) &&
      decide ((machine m [] []).fault = none) && decide ((machine m [] []).inTrap = false)) = true := by decide

theorem witness_BlkSetChangesOneByte :
    (machine .debug [] []).wf = true ∧ (machine .debug [] []).readByte 2#16 1022 = some 0x77#8 := by decide

theorem witness_RwFastPath_found :
    (machine .debug [(0#6, 0#16)] []).fault = none ∧ (machine .debug [(0#6, 0#16)] []).inTrap = false ∧ (0x03FE#16).toNat % 1024 < 1023 ∧
    (machine .debug [(0#6, 0#16)] []).readMap[(0x03FE#16).toNat / 1024]? = some (.bound 0#16) ∧
    (machine .debug [(0#6, 0#16)] []).readByte 0#16 ((0x03FE#16).toNat % 1024) = some 0x34#8 ∧
    (machine .debug [(0#6, 0#16)] []).readByte 0#16 ((0x03FE#16).toNat % 1024 + 1) = some 0xCD#8 := by decide

/-- Also the clauses of an Absent entry, at 0x0400. -/
theorem witness_RwFastPath_short :
    [Mode.debug, .release].all (fun m =>
      decide ((machine m [(0#6, 2#16)] []).readMap[(0x03FE#16).toNat / 1024]? = some (.bound 2#16)) &&
      decide ((machine m [(0#6, 2#16)] []).lenOf 2#16 = some 1023) && decide (1023 < (0x03FE#16).toNat % 1024 + 2) &&
      decide ((machine m [(0#6, 2#16)] []).mode = m) && decide ((machine m [(0#6, 2#16)] []).fault = none) &&
      decide ((machine m [(0#6, 2#16)] []).inTrap = false) &&
      decide ((machine m [(0#6, 2#16)] []).readMap[(0x0400#16).toNat / 1024]? = some .absent)) = true := by decide

theorem witness_RwSplitPath_found :
    (machine .debug [(0#6, 0#16), (1#6, 1#16)] []).fault = none ∧ (machine .debug [(0#6, 0#16), (1#6, 1#16)] []).inTrap = false ∧
    (0x03FF#16).toNat % 1024 = 1023 ∧ (machine .debug [(0#6, 0#16), (1#6, 1#16)] []).readMap[(0x03FF#16).toNat / 1024]? = some (.bound 0#16) ∧
    (machine .debug [(0#6, 0#16), (1#6, 1#16)] []).readByte 0#16 1023 = some 0xCD#8 ∧
    (machine .debug [(0#6, 0#16), (1#6, 1#16)] []).readMap[(0x03FF#16).toNat / 1024 + 1]? = some (.bound 1#16) ∧
    (machine .debug [(0#6, 0#16), (1#6, 1#16)] []).readByte 1#16 0 = some 0xAB#8 := by decide

theorem witness_RwSplitPath_highByteFails :
    (machine .debug [(0#6, 0#16), (1#6, 4#16)] []).readMap[(0x03FF#16).toNat / 1024 + 1]? = some (.bound 4#16) ∧
    (machine .debug [(0#6, 0#16), (1#6, 4#16)] []).lenOf 4#16 = some 0 ∧ (machine .debug [(0#6, 0#16), (1#6, 4#16)] []).mode = .debug ∧
    (machine .debug [(0#6, 0#16)] []).readMap[(0x03FF#16).toNat / 1024 + 1]? = some .absent ∧
    (machine .debug [(63#6, 0#16)] []).readMap[(0xFFFF#16).toNat / 1024 + 1]? = none ∧
    (machine .debug [(63#6, 0#16)] []).readMap[(0xFFFF#16).toNat / 1024]? = some (.bound 0#16) ∧
    (machine .debug [(63#6, 0#16)] []).readByte 0#16 1023 = some 0xCD#8 := by decide

theorem witness_RwSplitPath_lowByteFails :
    (machine .debug [(0#6, 2#16)] []).readMap[(0x03FF#16).toNat / 1024]? = some (.bound 2#16) ∧
    (machine .debug [(0#6, 2#16)] []).lenOf 2#16 = some 1023 ∧ (machine .debug [(0#6, 2#16)] []).mode = .debug ∧
    (machine .debug [(0#6, 2#16)] []).readMap[(0x07FF#16).toNat / 1024]? = some .absent ∧ (0x07FF#16).toNat % 1024 = 1023 := by decide

theorem witness_RwAtTopOfAddressSpace :
    [Mode.debug, .release].all (fun m =>
      decide ((machine m [(63#6, 0#16)] []).fault = none) && decide ((machine m [(63#6, 0#16)] []).inTrap = false) &&
      decide ((machine m [(63#6, 0#16)] []).readMap[63]? = some (.bound 0#16)) && decide ((machine m [(63#6, 0#16)] []).mode = m) &&
      decide ((machine m [(63#6, 0#16)] []).readByte 0#16 1023 = some 0xCD#8)) = true := by decide

theorem witness_RwReleaseDrawsTheWholeWord :
    (machine .release [(0#6, 0#16)] []).wf = true ∧ (machine .release [(0#6, 0#16)] []).fault = none ∧ (machine .release [(0#6, 0#16)] []).mode = .release ∧
    (machine .release [(0#6, 0#16)] []).accessCovered (.rw 0x03FF#16) = false := by decide

theorem witness_RwAgreesWithTwoRb :
    (machine .debug [(0#6, 0#16), (1#6, 1#16)] []).mode = .debug ∧ (machine .debug [(0#6, 0#16), (1#6, 1#16)] []).fault = none ∧
    (machine .debug [(0#6, 0#16), (1#6, 1#16)] []).inTrap = false ∧ (0x03FF#16).toNat < 0xFFFF ∧
    nextIs (exec (.rw 0x03FF#16) (machine .debug [(0#6, 0#16), (1#6, 1#16)] [])) (fun t => decide (t.fault = none)) = true := by decide

theorem witness_WriteThenReadRoundTrip :
    (machine .debug [(63#6, 0#16)] [(63#6, 0#16)]).wf = true ∧ (machine .debug [(63#6, 0#16)] [(63#6, 0#16)]).fault = none ∧
    [0xFFFB#16, 0xFFFC#16, 0xFFFF#16].all (fun a =>
      decide ((machine .debug [(63#6, 0#16)] [(63#6, 0#16)]).readMap[a.toNat / 1024]? = some (.bound 0#16)) &&
      decide ((machine .debug [(63#6, 0#16)] [(63#6, 0#16)]).writeMap[a.toNat / 1024]? = some (.bound 0#16)) && decide (a.toNat % 1024 < 1024)) = true ∧
    (machine .debug [(63#6, 0#16)] [(63#6, 0#16)]).lenOf 0#16 = some 1024 ∧ (0xFFFB#16).toNat < 0xFFFC ∧ 0xFFFC ≤ (0xFFFC#16).toNat ∧
    nextIs (exec (.wb 0xFFFC#16 9#8) (machine .debug [(63#6, 0#16)] [(63#6, 0#16)]))
      (fun t => decide (t.fault = none) && decide (t.readMap[63]? = (machine .debug [(63#6, 0#16)] [(63#6, 0#16)]).readMap[63]?) &&
        decide (t.readByte 0#16 1020 = ((machine .debug [(63#6, 0#16)] [(63#6, 0#16)]).blkSet 0#16 1020 9#8).readByte 0#16 1020)) = true := by decide

theorem witness_TwoWritesThenWordReadRoundTrip :
    (machine .debug [(63#6, 0#16)] [(63#6, 0#16)]).wf = true ∧ (machine .debug [(63#6, 0#16)] [(63#6, 0#16)]).fault = none ∧ (machine .debug [(63#6, 0#16)] [(63#6, 0#16)]).readMap[(0xFFFA#16).toNat / 1024]? = some (.bound 0#16) ∧
    (machine .debug [(63#6, 0#16)] [(63#6, 0#16)]).writeMap[(0xFFFA#16).toNat / 1024]? = some (.bound 0#16) ∧ (machine .debug [(63#6, 0#16)] [(63#6, 0#16)]).lenOf 0#16 = some 1024 ∧
    (0xFFFA#16).toNat % 1024 ≠ 1023 ∧ (0xFFFA#16).toNat % 1024 + 1 < 1024 ∧ (0xFFFA#16).toNat + 1 < 0xFFFC := by decide

/-- An alias at page 9 and another block at page 10. -/
theorem witness_StoreIsSeenExactlyThroughAliases :
    (machine .debug [(0#6, 0#16), (9#6, 0#16), (10#6, 1#16)] [(0#6, 0#16)]).wf = true ∧ (machine .debug [(0#6, 0#16), (9#6, 0#16), (10#6, 1#16)] [(0#6, 0#16)]).fault = none ∧ (0x03FF#16).toNat < 0xFFFC ∧
    (machine .debug [(0#6, 0#16), (9#6, 0#16), (10#6, 1#16)] [(0#6, 0#16)]).writeMap[(0x03FF#16).toNat / 1024]? = some (.bound 0#16) ∧ (machine .debug [(0#6, 0#16), (9#6, 0#16), (10#6, 1#16)] [(0#6, 0#16)]).lenOf 0#16 = some 1024 ∧ (0x03FF#16).toNat % 1024 < 1024 ∧
    (machine .debug [(0#6, 0#16), (9#6, 0#16), (10#6, 1#16)] [(0#6, 0#16)]).readMap[(0x27FF#16).toNat / 1024]? = some (.bound 0#16) ∧
    (machine .debug [(0#6, 0#16), (9#6, 0#16), (10#6, 1#16)] [(0#6, 0#16)]).readByte 0#16 ((0x27FF#16).toNat % 1024) = some 0xCD#8 ∧
    (machine .debug [(0#6, 0#16), (9#6, 0#16), (10#6, 1#16)] [(0#6, 0#16)]).readMap[(0x2BFF#16).toNat / 1024]? = some (.bound 1#16) ∧
    (machine .debug [(0#6, 0#16), (9#6, 0#16), (10#6, 1#16)] [(0#6, 0#16)]).readByte 1#16 ((0x2BFF#16).toNat % 1024) = some 0#8 ∧
    nextIs (exec (.wb 0x03FF#16 1#8) (machine .debug [(0#6, 0#16), (9#6, 0#16), (10#6, 1#16)] [(0#6, 0#16)])) (fun _ => true) = true := by decide

theorem witness_CoveredAccessIgnoresTheMode :
    (machine .debug [(63#6, 0#16)] [(63#6, 0#16)]).accessCovered (.rb 0xFFFF#16) = true ∧ (machine .debug [(63#6, 0#16)] [(63#6, 0#16)]).accessCovered (.rw 0xFFFE#16) = true ∧
    (machine .debug [(63#6, 0#16)] [(63#6, 0#16)]).accessCovered (.wb 0xFFFB#16 1#8) = true ∧ (0xFFFB#16).toNat < 0xFFFC ∧
    nextIs (exec (.rb 0xFFFF#16) (machine .debug [(63#6, 0#16)] [(63#6, 0#16)])) (fun _ => true) = true ∧ nextIs (exec (.rw 0xFFFE#16) (machine .debug [(63#6, 0#16)] [(63#6, 0#16)])) (fun _ => true) = true ∧
    nextIs (exec (.wb 0xFFFB#16 1#8) (machine .debug [(63#6, 0#16)] [(63#6, 0#16)])) (fun _ => true) = true := by decide

/-- ReadFrame, BindAndResetFrame, WbFrame and CopyFrame: each command answers a next state. -/
theorem witness_FrameHypotheses :
    [Instr.trans 0#16, .rb 0x03FF#16, .rw 0x03FE#16, .resolve .r 0#6, .illegal 0xFFFFFFFF#32, .bind .r 1#6 0#16, .bind .w 1#6 0#16, .reset,
      .wb 0x03FF#16 9#8, .copy 0#16 0#32 1#16 0#32 4#32].all
        (fun i => nextIs (exec i (machine .debug [(0#6, 0#16), (9#6, 0#16), (10#6, 1#16)] [(0#6, 0#16)])) (fun _ => true)) = true ∧ (machine .debug [(0#6, 0#16), (9#6, 0#16), (10#6, 1#16)] [(0#6, 0#16)]).wf = true ∧ (0x03FF#16).toNat < 0xFFFC := by decide

theorem witness_ReadsAreRepeatable :
    (machine .debug [(0#6, 0#16), (9#6, 0#16), (10#6, 1#16)] [(0#6, 0#16)]).mode = .debug ∧ (machine .debug [(0#6, 0#16), (9#6, 0#16), (10#6, 1#16)] [(0#6, 0#16)]).fault = none ∧
    [Instr.trans 0#16, .rb 0x03FF#16, .rw 0x03FE#16, .resolve .r 0#6].all
      (fun i => nextIs (exec i (machine .debug [(0#6, 0#16), (9#6, 0#16), (10#6, 1#16)] [(0#6, 0#16)])) (fun t => decide (t.fault = none))) = true := by decide

/-- Page 63 is written to block 0, and the mapper answers (0, 7) with BIND R, 2, 0 and everything else with nothing. -/
def bindingMapper : State := machine .debug [] [(63#6, 0#16)] [rowFor 0#2 7#8 [0x40020000#32]]

/-- The same state with a mapper of which nothing is known. -/
def anyMapper : State := machine .debug [] [(63#6, 0#16)] [] (.relation 0)

/-- Also of FaultInsideTheAnswerStopsIt. -/
theorem witness_NotificationFrame :
    bindingMapper.fault = none ∧ nextIs (exec (.notify 0#2 7#8) bindingMapper) (fun _ => true) = true := by decide

/-- No answer the mapper may give holds a COPY; also of PagingWriteStoresBeforeTheAnswer. -/
theorem witness_NotificationFrame_noCopy :
    ∀ a cs, bindingMapper.MayAnswer 0#2 7#8 a → decodeAll a.words = some cs →
      ∀ sb sp db dp n, Command.instr (.copy sb sp db dp n) ∉ cs := by
  intro a cs ha hd
  have ha' : a ∈ [{ next := 1, words := [0x40020000#32] : Answer }] := ha
  rw [List.mem_singleton.mp ha', show decodeAll [0x40020000#32] = some [.instr (.bind .r 2#6 0#16)] by decide] at hd
  cases hd
  simp

/-- No answer the mapper may give to (3, 7) holds a BIND. -/
theorem witness_NotificationFrame_noBind :
    ∀ a cs, bindingMapper.MayAnswer 3#2 7#8 a → decodeAll a.words = some cs →
      ∀ d page b, Command.instr (.bind d page b) ∉ cs := by
  intro a cs ha hd
  have ha' : a = { next := 0, words := [] } := ha
  rw [ha'] at hd
  cases hd
  simp

/-- V-RE-3's answer without its BIND: the maps stay, the byte changes. -/
theorem test_notification_copy_keeps_maps :
    nextIs (exec (.notify 0#2 7#8) (machine .debug [(2#6, 1#16)] [] [rowFor 0#2 7#8 [0x60000000#32, 0#32, 0#32, 1#32, 1#32]]))
      (fun t => t.entry .r 2 == .bound 1#16 && t.readByte 0#16 1 == some 0x12#8 && !t.latched) = true := by decide

/-- A mapper of which nothing is known meets the hypotheses. -/
theorem witness_NotifyRunsOneMapperAnswer :
    anyMapper.fault = none ∧ ∀ a, anyMapper.MayAnswer 0#2 7#8 a → wholeStream a.words = true :=
  ⟨by decide, fun _ ha => State.mayAnswer_whole (by decide) ha⟩

theorem witness_UnansweredNotificationOnlyLogs :
    bindingMapper.fault = none ∧ bindingMapper.inTrap = false ∧
      ∀ a, bindingMapper.MayAnswer 3#2 7#8 a → a = { next := bindingMapper.mapperState, words := [] } :=
  ⟨by decide, by decide, fun _ ha => ha⟩

theorem witness_NotificationAnsweredByBindRebinds :
    bindingMapper.fault = none ∧ bindingMapper.inTrap = false ∧ (0#16).toNat < bindingMapper.blocks.length ∧
      ∀ a, bindingMapper.MayAnswer 0#2 7#8 a → a = { next := 1, words := encode (.bind .r 2#6 0#16) } :=
  ⟨by decide, by decide, by decide, fun _ ha => List.mem_singleton.mp ha⟩

theorem witness_NestedCommandIsTheCommand :
    (inside bindingMapper).fault = none ∧ (inside bindingMapper).inTrap = true ∧ (Instr.copy 0#16 0#32 1#16 0#32 4#32).wfRequest = true := by decide

theorem witness_ReentrancyCheck :
    (inside bindingMapper).fault = none ∧ (inside bindingMapper).inTrap = true ∧ (Instr.bind .r 0#6 0xFFFF#16).wfRequest = true ∧
    nextIs (exec (.bind .r 0#6 0xFFFF#16) (inside bindingMapper)) (fun t => decide (t.fault ≠ none)) = true := by decide

theorem witness_WbNotifiesExactlyOnce :
    bindingMapper.fault = none ∧ bindingMapper.inTrap = false ∧
    [0xFFFB#16, 0xFFFC#16, 0xFFFF#16].all (fun a => nextIs (exec (.wb a 7#8) bindingMapper) (fun _ => true) && bindingMapper.accessCovered (.wb a 7#8)) = true ∧
    (machine .release [] []).mode = .release ∧ nextIs (exec (.wb 0xFFFC#16 7#8) (machine .release [] [])) (fun _ => true) = true ∧
    (machine .debug [] []).accessCovered (.wb 0xFFFC#16 7#8) = false ∧ nextIs (exec (.wb 0xFFFC#16 7#8) (machine .debug [] [])) (fun _ => true) = true := by decide

theorem witness_PagingWriteStoresBeforeTheAnswer :
    bindingMapper.wf = true ∧ bindingMapper.fault = none ∧ 0xFFFC ≤ (0xFFFC#16).toNat ∧ bindingMapper.writeMap[63]? = some (.bound 0#16) ∧
    bindingMapper.lenOf 0#16 = some 1024 ∧ (0xFFFC#16).toNat % 1024 < 1024 ∧ nextIs (exec (.wb 0xFFFC#16 7#8) bindingMapper) (fun _ => true) = true := by decide

theorem witness_CopyChecks :
    (machine .debug [] []).fault = none ∧ (machine .debug [] []).blocks.length ≤ (6#16).toNat ∧ (5#16).toNat < (machine .debug [] []).blocks.length ∧
    (machine .debug [] []).lenOf 5#16 = some 5 ∧ (machine .debug [] []).lenOf 4#16 = some 0 ∧ (machine .debug [] []).mode = .debug ∧ 1#32 ≠ 0#32 ∧
    5 < (5#32).toNat + (1#32).toNat ∧ 0 < (0#32).toNat + (1#32).toNat := by decide

/-- Two blocks with ranges that end at their ends, and two adjoining ranges of one. -/
theorem witness_CopyOfDisjointRanges :
    (machine .debug [] []).wf = true ∧ (machine .debug [] []).fault = none ∧ (machine .debug [] []).lenOf 5#16 = some 5 ∧ (machine .debug [] []).lenOf 3#16 = some 512 ∧
    (0#32).toNat + (5#32).toNat ≤ 5 ∧ (507#32).toNat + (5#32).toNat ≤ 512 ∧ (5#16 ≠ 3#16) ∧ (0#32).toNat + (2#32).toNat ≤ (2#32).toNat ∧
    (2#32).toNat + (2#32).toNat ≤ 5 := by decide

/-- CopyRightwardIsMemmove from 0 to 2, CopyLeftwardKeepsDescendingOrder from 2 to 0. -/
theorem witness_CopyWithinOneBlock :
    (machine .debug [] []).wf = true ∧ (machine .debug [] []).fault = none ∧ (machine .debug [] []).lenOf 5#16 = some 5 ∧ (0#32).toNat ≤ (2#32).toNat ∧
    (2#32).toNat + (3#32).toNat ≤ 5 ∧ (0#32).toNat < (2#32).toNat := by decide

/-- Two blocks, and one: from 3 to 1 three bytes of a block of five reach past the end (index 5), read the last byte (index 4), and read a byte already written (index 3); from 2 to 4 the destination passes the end. -/
theorem witness_CopyReleaseOutOfRange :
    (machine .release [] []).wf = true ∧ (machine .release [] []).fault = none ∧ (machine .release [] []).mode = .release ∧
    (machine .release [] []).lenOf 5#16 = some 5 ∧ (machine .release [] []).lenOf 3#16 = some 512 ∧
    5 ≤ (3#32).toNat + 2 ∧ (1#32).toNat + 2 < 5 ∧ (3#32).toNat + 1 < 5 ∧ ¬ (3#32).toNat + 1 < (1#32).toNat + (3#32).toNat ∧
    (1#32).toNat < (3#32).toNat ∧ (3#32).toNat + 0 < (1#32).toNat + (3#32).toNat ∧ 5 ≤ (4#32).toNat + 1 := by decide

theorem witness_ResetClearsBothMaps :
    (machine .debug [(63#6, 0#16)] [(63#6, 0#16)]).mode = .debug ∧
    nextIs (exec .reset (machine .debug [(63#6, 0#16)] [(63#6, 0#16)])) (fun _ => true) = true ∧ (machine .debug [(63#6, 0#16)] [(63#6, 0#16)]).fault = none ∧ (machine .debug [(63#6, 0#16)] [(63#6, 0#16)]).inTrap = false ∧ (inside (machine .debug [(63#6, 0#16)] [(63#6, 0#16)])).fault = none ∧ (inside (machine .debug [(63#6, 0#16)] [(63#6, 0#16)])).inTrap = true ∧ (faulted (machine .debug [(63#6, 0#16)] [(63#6, 0#16)])).fault ≠ none := by decide

theorem witness_FaultingCommandOnlyLatches :
    (machine .debug [] []).fault = none ∧
    [Instr.rb 0#16, .rw 0#16, .resolve .r 0#6, .bind .r 0#6 6#16, .copy 6#16 0#32 0#16 0#32 0#32, .illegal 0x80000000#32].all
      (fun i => nextIs (exec i (machine .debug [] [])) (fun t => decide (t.fault ≠ none))) = true := by decide

theorem witness_ReleaseRaisesNoAddressingFault :
    ({ machine .release [] [] with requests := [0x4000FFFF#32] } : State).mode = .release ∧
    ({ machine .release [] [] with requests := [0x4000FFFF#32] } : State).fault = none ∧
    nextIs (step { machine .release [] [] with requests := [0x4000FFFF#32] }) (fun t => decide (t.fault ≠ none)) = true := by decide

theorem witness_BytesAbove1023AreNeverRead :
    [(.rb 0x03FF#16), Instr.rw 0x03FF#16].all (fun i => nextIs (exec i longState) (fun _ => true)) = true := by decide

end Sys2Proof.Machine.Test
end

section
/-! The family 00_scope.md: every step keeps `State.wf`, and from a well-formed state with a whole request stream it answers a next state. Both come from one fact, `AnswersWf`, proved once per command. -/

namespace Sys2Proof

/-- The decoder always takes or refuses what stands at the head of a stream that has a word. -/
theorem decode_cons_ne_empty (w : Word) (rest : List Word) : decode (w :: rest) ≠ .empty := by
  simp only [decode]
  split
  · split <;> simp
  · simp

/-- With a word of fuel for each word, the decoder reads exactly the whole streams (30_encoding.md R76). -/
theorem isSome_decodeUpTo {n : Nat} {ws : List Word} (hn : ws.length ≤ n) :
    (decodeUpTo n ws).isSome = wholeStream ws := by
  induction n generalizing ws with
  | zero =>
    obtain rfl : ws = [] := List.length_eq_zero_iff.mp (Nat.le_zero.mp hn)
    rfl
  | succ n ih =>
    cases ws with
    | nil => rfl
    | cons w t =>
      rw [wholeStream, wholeFrom_decode, decodeUpTo]
      cases hd : decode (w :: t) with
      | empty => exact absurd hd (decode_cons_ne_empty w t)
      | truncatedCopy => rfl
      | command c rest =>
        have hlt := decode_rest_length hd
        rw [Option.isSome_map, ih (by omega)]
        rfl

/-- A whole stream is a list of commands (30_encoding.md R76). -/
theorem decodeAll_of_whole {ws : List Word} (h : wholeStream ws = true) : ∃ cs, decodeAll ws = some cs :=
  Option.isSome_iff_exists.mp ((isSome_decodeUpTo le_rfl).trans h)

end Sys2Proof

namespace Sys2Proof.Machine

/-! ## `State.wf` under each update of the state -/

/-- `State.wf` by what can break it: the tables, the mapper, and inTrap without a fault. -/
theorem State.wf_iff_tablesWf {s : State} :
    s.wf = true ↔ s.tablesWf ∧ mapperWf s.mapper = true ∧ (s.inTrap = true → s.fault ≠ none) := by
  rw [State.wf_iff, State.tablesWf]
  simp only [and_assoc]

theorem State.wf_requests {s : State} (h : s.wf = true) (ws : List Word) :
    ({ s with requests := ws } : State).wf = true := h

theorem State.wf_respond {s : State} (h : s.wf = true) (w : Word) : (s.respond w).wf = true := h

theorem State.wf_respondFreeByte {s : State} (h : s.wf = true) : s.respondFreeByte.wf = true := h

theorem State.wf_respondFreeHalf {s : State} (h : s.wf = true) : s.respondFreeHalf.wf = true := h

theorem State.wf_raise {s : State} (h : s.wf = true) (r : FaultRecord) : (s.raise r).wf = true := by
  obtain ⟨ht, hm, -⟩ := State.wf_iff_tablesWf.mp h
  exact State.wf_iff_tablesWf.mpr ⟨ht, hm, by simp⟩

theorem State.wf_clearMaps {s : State} (h : s.wf = true) : (clearMaps s).wf = true := by
  obtain ⟨ha, -, -, hm, hi⟩ := State.wf_iff.mp h
  exact State.wf_iff.mpr ⟨ha, PageMap.wf_allAbsent _, PageMap.wf_allAbsent _, hm, hi⟩

theorem State.wf_blkSet {s : State} (h : s.wf = true) {b : BlockId} {i n : Nat} (hb : s.lenOf b = some n) (hi : i < n)
    (v : Byte) : (s.blkSet b i v).wf = true := by
  obtain ⟨ha, hr, hw, hm, ht⟩ := State.wf_iff.mp h
  have hlen := State.length_of_lens (State.lens_blkSet s b i v)
  exact State.wf_iff.mpr ⟨State.arenaWf_blkSet ha hb hi v, hlen ▸ hr, hlen ▸ hw, hm, ht⟩

/-- A notification returns to a state between commands: inTrap is cleared unless a fault is latched (60_exceptions.md R149). -/
theorem State.wf_leaveTrap {s : State} (ht : s.tablesWf) (hm : mapperWf s.mapper = true) : s.leaveTrap.wf = true := by
  refine State.wf_iff.mpr ⟨by simpa using ht.1, by simpa using ht.2.1, by simpa using ht.2.2, by simpa using hm, ?_⟩
  simp only [State.leaveTrap_inTrap, State.leaveTrap_fault, Bool.and_eq_true]
  exact fun hi => (State.latched_iff s).mp hi.1

/-- Outside an answer a command's nested effect keeps the state well-formed. -/
theorem runNested_wf {s : State} (h : s.wf = true) (hi : s.inTrap = false) (c : Command) : (runNested c s).wf = true := by
  obtain ⟨ht, hm, -⟩ := State.wf_iff_tablesWf.mp h
  have frame := runNested_frame c s
  refine State.wf_iff_tablesWf.mpr ⟨runNested_tablesWf c ht, frame.mapper ▸ hm, fun hi' => ?_⟩
  exact absurd (hi'.symm.trans (frame.inTrap.trans hi)) (by simp)

/-- In a well-formed state no map entry stops the model (log entry 10). -/
theorem State.lenOf_ne_none {s : State} (h : s.wf = true) {d : Dir} {p : Nat} {b : BlockId}
    (hb : (s.mapOf d)[p]? = some (.bound b)) : s.lenOf b ≠ none := by
  obtain ⟨n, hn⟩ := State.lenOf_of_bound h (State.entry_eq_bound.mpr hb)
  simp [hn]

/-! ## Every command answers a well-formed next state -/

/-- The outcome is a next state, and that state is well-formed. -/
def AnswersWf (o : Host.Outcome State Fault Refusal) : Prop := ∃ t : State, o = .next t ∧ t.wf = true

theorem AnswersWf.next {s : State} (h : s.wf = true) : AnswersWf (.next s) := ⟨s, rfl, h⟩

theorem AnswersWf.unlessLatched {s : State} {body : Host.Outcome State Fault Refusal} (h : s.wf = true)
    (hbody : s.fault = none → AnswersWf body) : AnswersWf (s.unlessLatched body) := by
  rcases s.latched_or_none with hl | hf
  · rw [State.unlessLatched_of_latched hl]; exact .next h
  · rw [State.unlessLatched_of_none hf]; exact hbody hf

theorem AnswersWf.unlessInTrap {s : State} {op : Mnemonic} {w : Word} {body : Host.Outcome State Fault Refusal}
    (h : s.wf = true) (hbody : AnswersWf body) : AnswersWf (s.unlessInTrap op w body) := by
  cases hi : s.inTrap
  · rw [State.unlessInTrap_of_false hi]; exact hbody
  · rw [State.unlessInTrap_of_true hi]; exact .next (State.wf_raise h _)

/-- The mapper's answer is whole, so it is run, and each of its commands keeps the tables (42_trap.md R110, R112). -/
theorem notify_answersWf {s : State} (h : s.wf = true) (k : RegIndex) (v : Byte) : AnswersWf (notify k v s) := by
  obtain ⟨ht, hm, -⟩ := State.wf_iff_tablesWf.mp h
  obtain ⟨a, ha, ⟨hd, -⟩ | ⟨cs, n, -, e⟩⟩ := notify_cases k v s
  · obtain ⟨cs, hcs⟩ := decodeAll_of_whole (State.mayAnswer_whole hm ha)
    simp [hcs] at hd
  · rw [e]
    refine .next (State.wf_leaveTrap ?_ ?_)
    · exact runAnswer_keeps (fun c _ _ => runNested_tablesWf c) ht
    · rw [(runAnswer_frame cs _).mapper]; exact hm

theorem afterStore_answersWf {s : State} (h : s.wf = true) (a : Addr) (v : Byte) : AnswersWf (afterStore a v s) := by
  unfold afterStore
  split
  · exact notify_answersWf h _ v
  · exact .next h

theorem readByteAt_answersWf {s : State} (h : s.wf = true) (a : Addr) : AnswersWf (readByteAt a s) := by
  rcases readByteAt_cases a s with ⟨b, v, -, -, e⟩ | ⟨-, e⟩ | ⟨r, -, e, -⟩ | ⟨b, hb, hl, -⟩
  · rw [e]; exact .next (State.wf_respond h _)
  · rw [e]; exact .next (State.wf_respondFreeByte h)
  · rw [e]; exact .next (State.wf_raise h r)
  · exact absurd hl (State.lenOf_ne_none h (d := .r) hb)

theorem writeByteAt_answersWf {s : State} (h : s.wf = true) (a : Addr) (v : Byte) : AnswersWf (writeByteAt a v s) := by
  rcases writeByteAt_cases a v s with ⟨b, n, -, hl, hlt, e⟩ | ⟨-, e, -⟩ | ⟨r, -, e, -⟩ | ⟨b, hb, hl, -⟩
  · rw [e]; exact afterStore_answersWf (State.wf_blkSet h hl hlt v) a v
  · rw [e]; exact afterStore_answersWf h a v
  · rw [e]; exact .next (State.wf_raise h r)
  · exact absurd hl (State.lenOf_ne_none h (d := .w) hb)

theorem readWordAt_answersWf {s : State} (h : s.wf = true) (a : Addr) : AnswersWf (readWordAt a s) := by
  rcases readWordAt_cases a s with ⟨b1, b2, lo, hi, -, -, -, -, e⟩ | ⟨-, e⟩ | ⟨r, -, e, -⟩ | ⟨p, b, hb, hl, -⟩
  · rw [e]; exact .next (State.wf_respond h _)
  · rw [e]; exact .next (State.wf_respondFreeHalf h)
  · rw [e]; exact .next (State.wf_raise h r)
  · exact absurd hl (State.lenOf_ne_none h (d := .r) hb)

/-- Every command, and the notification, answers a well-formed next state from a well-formed one. -/
theorem exec_answersWf {s : State} (h : s.wf = true) (i : Instr) : AnswersWf (exec i s) := by
  have nested (c : Command) : AnswersWf (s.unlessLatched (.next (runNested c s))) :=
    .unlessLatched h fun hf => .next (runNested_wf h (State.wf_inTrap h hf) c)
  cases i with
  | trans a => exact nested (.instr (.trans a))
  | rb a => exact .unlessLatched h fun _ => .unlessInTrap h (readByteAt_answersWf h a)
  | wb a v => exact .unlessLatched h fun _ => .unlessInTrap h (writeByteAt_answersWf h a v)
  | rw a => exact .unlessLatched h fun _ => .unlessInTrap h (readWordAt_answersWf h a)
  | bind d p b => exact nested (.instr (.bind d p b))
  | resolve d p => exact nested (.instr (.resolve d p))
  | copy sb sp db dp n => exact nested (.instr (.copy sb sp db dp n))
  | reset => exact .unlessLatched h fun _ => .unlessInTrap h (.next (State.wf_clearMaps h))
  | illegal w => exact nested (.instr (.illegal w))
  | notify k v => exact .unlessLatched h fun _ => notify_answersWf h k v

/-- From a well-formed state a step refuses a stream that is not whole, or answers a well-formed next state. -/
theorem step_wf_cases {s : State} (h : s.wf = true) :
    (step s = .refused .truncatedCopy ∧ wholeStream s.requests = false) ∨ AnswersWf (step s) := by
  rcases step_cases s with hr | ⟨e, -⟩ | ⟨i, rest, e, -⟩ | ⟨op, w, rest, e, -⟩
  · exact .inl hr
  · rw [e]; exact .inr (.next h)
  · rw [e]; exact .inr (exec_answersWf (State.wf_requests h rest) i)
  · rw [e]; exact .inr (.next (State.wf_raise (State.wf_requests h rest) _))

/-- Settles O18: every case of a step from a well-formed state that answers a next state answers a well-formed one. -/
theorem stepKeepsStateWellFormed : Obligations.StepKeepsStateWellFormed := by
  unfold Obligations.StepKeepsStateWellFormed
  intro s t hs hst
  rcases step_wf_cases hs with ⟨e, -⟩ | ⟨t', e, ht'⟩ <;> rw [e] at hst <;> cases hst
  exact ht'

/-- Settles O19: the one step that answers no next state is on a stream that is not whole. -/
theorem wellFormedStateAlwaysSteps : Obligations.WellFormedStateAlwaysSteps := by
  unfold Obligations.WellFormedStateAlwaysSteps
  intro s hs hw
  rcases step_wf_cases hs with ⟨-, hn⟩ | ⟨t, e, -⟩
  · simp [hw] at hn
  · exact ⟨t, e⟩

/-! ## What stays fixed -/

/-- But for the words it takes from the request channel, a step stays in the frame of a command. -/
theorem step_frame {s t : State} (h : step s = .next t) : ∃ rest, ExecFrame { s with requests := rest } t := by
  rcases step_cases s with ⟨e, -⟩ | ⟨e, -⟩ | ⟨i, rest, e, -⟩ | ⟨op, w, rest, e, -⟩ <;> rw [e] at h
  · cases h
  · cases h; exact ⟨s.requests, .refl s⟩
  · exact ⟨rest, exec_frame h⟩
  · cases h; exact ⟨rest, .of_nested (.raise _ _)⟩

/-- Settles O20: MODE, MAPPER and the lengths are in the frame of a step. -/
theorem stepKeepsLaunchParameters : Obligations.StepKeepsLaunchParameters := by
  unfold Obligations.StepKeepsLaunchParameters
  intro s t hst
  obtain ⟨rest, frame⟩ := step_frame hst
  exact ⟨frame.mode, frame.mapper, frame.lens⟩

/-- Settles O28: a byte that can be read lies below its block's length, where the law of `BlkSet` applies. -/
theorem blkSetChangesOneByte : Obligations.BlkSetChangesOneByte := by
  unfold Obligations.BlkSetChangesOneByte
  intro s b b' i j x old hs hold
  obtain ⟨harena, -⟩ := State.wf_iff.mp hs
  obtain ⟨n, hn, hi⟩ := State.readByte_isSome_iff.mp ⟨old, hold⟩
  exact ⟨State.readByte_blkSet harena hn hi x b' j, State.lenOf_blkSet s b b' i x⟩

/-! ## Session start -/

/-- Both maps are Absent and no answer runs at session start (10_state.md R36). -/
theorem State.wf_launch {l : Launch} (h : l.wf = true) : (State.launch l).wf = true := by
  obtain ⟨harena, hmapper⟩ := (Bool.and_eq_true _ _).mp h
  exact State.wf_iff.mpr ⟨harena, PageMap.wf_allAbsent _, PageMap.wf_allAbsent _, hmapper, fun hi => by cases hi⟩

/-- Settles O14: every launch of R7 starts well-formed, and the launch that State.reset names is one. -/
theorem sessionStartIsWellFormed : Obligations.SessionStartIsWellFormed := by
  unfold Obligations.SessionStartIsWellFormed
  have hdefault : Launch.default.wf = true := by decide
  exact ⟨fun _ => State.wf_launch, rfl, State.wf_launch hdefault⟩

end Sys2Proof.Machine
end

section
/-! The family 10_state.md: what a step takes from the request channel and what it appends, what a latched fault stops, and which bytes RB and RW read. -/

namespace Sys2Proof

/-- What the decoder leaves of a stream is the end of it. -/
theorem decode_rest_suffix {ws rest : List Word} {c : Command} (h : decode ws = .command c rest) : rest <:+ ws := by
  cases ws with
  | nil => simp [decode] at h
  | cons w operands =>
    simp only [decode] at h
    split at h
    · split at h
      next w1 w2 w3 w4 rest' =>
        cases h
        exact List.suffix_append [w, w1, w2, w3, w4] _
      next => cases h
    · cases h
      exact List.suffix_cons w _

end Sys2Proof

namespace Sys2Proof.Machine

/-! ## The words a step takes -/

/-- A step takes words only from the head of the request channel (30_encoding.md R60). -/
theorem step_requests_suffix {s t : State} (h : step s = .next t) : t.requests <:+ s.requests := by
  rcases step_cases s with ⟨e, -⟩ | ⟨e, -⟩ | ⟨i, rest, e, -, -, hd⟩ | ⟨op, w, rest, e, -, -, hd⟩ <;> rw [e] at h
  · cases h
  · cases h; exact List.suffix_rfl
  · rw [(exec_frame h).requests]
    exact decode_rest_suffix hd
  · cases h; exact decode_rest_suffix hd

/-- Settles O21: the suffix is what the decoder leaves, the two prefixes are in the frame of a step. -/
theorem stepConsumesRequestsAndOnlyAppends : Obligations.StepConsumesRequestsAndOnlyAppends := by
  unfold Obligations.StepConsumesRequestsAndOnlyAppends
  intro s t hst
  obtain ⟨rest, frame⟩ := step_frame hst
  exact ⟨step_requests_suffix hst, frame.responses, frame.notifyLog⟩

/-- Settles O16: an empty stream is whole and has no command at its head, which leaves the idle case of a step. -/
theorem noRequestLeavesTheStateAlone : Obligations.NoRequestLeavesTheStateAlone := by
  unfold Obligations.NoRequestLeavesTheStateAlone
  intro s hs
  rcases step_cases s with ⟨-, hw⟩ | ⟨e, -⟩ | ⟨i, rest, -, -, -, hd⟩ | ⟨op, w, rest, -, -, -, hd⟩
  · simp [hs, wholeStream, wholeFrom] at hw
  · exact e
  · simp [hs, decode] at hd
  · simp [hs, decode] at hd

/-! ## A latched fault -/

/-- With a fault latched a step refuses a stream that is not whole, or leaves the state as it is (log entries 11 and 12). -/
theorem step_cases_of_latched {s : State} (h : s.latched = true) :
    (step s = .refused .truncatedCopy ∧ wholeStream s.requests = false) ∨ step s = .next s := by
  have hf := (State.latched_iff s).mp h
  rcases step_cases s with hr | ⟨e, -⟩ | ⟨i, rest, -, -, hnone, -⟩ | ⟨op, w, rest, -, -, hnone, -⟩
  · exact .inl hr
  · exact .inr e
  · exact absurd hnone hf
  · exact absurd hnone hf

/-- Settles O17: every command checks the latch first, and a step past it only refuses or idles. -/
theorem latchedFaultStopsEverything : Obligations.LatchedFaultStopsEverything := by
  unfold Obligations.LatchedFaultStopsEverything
  intro s r hr
  have hl : s.latched = true := (State.latched_iff s).mpr (by simp [hr])
  have hended : s.endedNormally = false := by simp [State.endedNormally, hl]
  refine ⟨fun i => exec_of_latched i hl, fun hw => ?_, fun t hst => ?_, hended⟩
  · exact (step_cases_of_latched hl).resolve_left fun ⟨_, hn⟩ => absurd (hw.symm.trans hn) (by simp)
  · rcases step_cases_of_latched hl with ⟨e, -⟩ | e <;> rw [e] at hst <;> cases hst
    rfl

/-! ## The bytes RB and RW read -/

/-- The arena `blocks` has the lengths of the state's own and its bytes below PAGE_SIZE. -/
structure State.AgreesBelowPageSize (s : State) (blocks : List Block) : Prop where
  lenOf : ∀ b : BlockId, ({ s with blocks := blocks } : State).lenOf b = s.lenOf b
  readByte : ∀ (b : BlockId) (j : Nat), j < 1024 →
    ({ s with blocks := blocks } : State).readByte b j = s.readByte b j

/-- With the arena `blocks` in place of its own, where the outcome `o` is a next state the outcome `o'` is that state with `blocks`. -/
def SameButBlocks (blocks : List Block) (o o' : Host.Outcome State Fault Refusal) : Prop :=
  ∀ t, o = .next t → o' = .next { t with blocks := blocks }

theorem SameButBlocks.next (blocks : List Block) (s : State) :
    SameButBlocks blocks (.next s) (.next { s with blocks := blocks }) := fun t h => by
  cases h; rfl

theorem SameButBlocks.fault (blocks : List Block) (r : Fault) (o : Host.Outcome State Fault Refusal) :
    SameButBlocks blocks (.fault r) o := fun t h => by
  cases h

/-- The latch and the reentrancy check read no block. -/
theorem SameButBlocks.checks {s : State} {blocks : List Block} {o o' : Host.Outcome State Fault Refusal}
    (h : SameButBlocks blocks o o') (op : Mnemonic) (w : Word) :
    SameButBlocks blocks (s.unlessLatched (s.unlessInTrap op w o))
      (({ s with blocks := blocks } : State).unlessLatched (({ s with blocks := blocks } : State).unlessInTrap op w o')) := by
  rcases s.latched_or_none with hl | hf
  · rw [State.unlessLatched_of_latched hl, State.unlessLatched_of_latched (s := { s with blocks := blocks }) hl]
    exact .next blocks s
  rw [State.unlessLatched_of_none hf, State.unlessLatched_of_none (s := { s with blocks := blocks }) hf]
  rcases Bool.eq_false_or_eq_true s.inTrap with hi | hi
  · rw [State.unlessInTrap_of_true hi, State.unlessInTrap_of_true (s := { s with blocks := blocks }) hi]
    exact .next blocks _
  · rw [State.unlessInTrap_of_false hi, State.unlessInTrap_of_false (s := { s with blocks := blocks }) hi]
    exact h

section

variable {s : State} {blocks : List Block} (h : s.AgreesBelowPageSize blocks)
include h

/-- Lookup-and-check reads lengths only (40_translation.md R84). -/
theorem State.AgreesBelowPageSize.check (op : Mnemonic) (word : Word) (addr : Addr) (d : Dir) (p off need : Nat) :
    ({ s with blocks := blocks } : State).check op word addr d p off need = s.check op word addr d p off need := by
  unfold State.check
  simp only [h.lenOf]
  rfl

theorem State.AgreesBelowPageSize.blkGet (b : BlockId) {j : Nat} (hj : j < 1024) :
    ({ s with blocks := blocks } : State).blkGet b j = s.blkGet b j := by
  rw [State.blkGet, State.blkGet, h.readByte b j hj]

theorem readByteAt_sameButBlocks (a : Addr) :
    SameButBlocks blocks (readByteAt a s) (readByteAt a { s with blocks := blocks }) := by
  have hoff : a.toNat % 1024 < 1024 := Nat.mod_lt _ (by decide)
  unfold readByteAt
  simp only [pageOf_widen, offsetOf_widen, h.check, h.blkGet _ hoff]
  cases s.check .rb (firstWord (.rb a)) a .r (a.toNat / 1024) (a.toNat % 1024) 1 with
  | ok b => exact .next blocks _
  | bad => exact .next blocks _
  | raised r => exact .next blocks _
  | noBlock b => exact .fault blocks _ _

/-- Both bytes of the fast path lie below PAGE_SIZE (41_access.md R94). -/
theorem readWordFast_sameButBlocks {a : Addr} (hfast : a.toNat % 1024 < 1023) :
    SameButBlocks blocks (readWordFast a s) (readWordFast a { s with blocks := blocks }) := by
  have hlow : a.toNat % 1024 < 1024 := by omega
  have hhigh : a.toNat % 1024 + 1 < 1024 := by omega
  unfold readWordFast
  simp only [pageOf_widen, offsetOf_widen, h.check, h.blkGet _ hlow, h.blkGet _ hhigh]
  cases s.check .rw (firstWord (.rw a)) a .r (a.toNat / 1024) (a.toNat % 1024) 2 with
  | ok b => exact .next blocks _
  | bad => exact .next blocks _
  | raised r => exact .next blocks _
  | noBlock b => exact .fault blocks _ _

/-- The split path reads an offset of one page and an offset of the next (41_access.md R93, R96). -/
theorem readWordSplit_sameButBlocks (a : Addr) :
    SameButBlocks blocks (readWordSplit a s) (readWordSplit a { s with blocks := blocks }) := by
  have hlow : a.toNat % 1024 < 1024 := Nat.mod_lt _ (by decide)
  have hhigh : (a.toNat + 1) % 1024 < 1024 := Nat.mod_lt _ (by decide)
  unfold readWordSplit
  simp only [pageOf_widen, offsetOf_widen, pageOf_highByteAddr, offsetOf_highByteAddr, h.check, h.blkGet _ hlow,
    h.blkGet _ hhigh]
  generalize s.check .rw (firstWord (.rw a)) a .r (a.toNat / 1024) (a.toNat % 1024) 1 = c1
  generalize s.check .rw (firstWord (.rw a)) a .r ((a.toNat + 1) / 1024) ((a.toNat + 1) % 1024) 1 = c2
  cases c1 with
  | raised r => exact .next blocks _
  | noBlock b => exact .fault blocks _ _
  | ok b1 =>
    cases c2 with
    | noBlock b => exact .fault blocks _ _
    | ok b2 => exact .next blocks _
    | bad => exact .next blocks _
    | raised r => exact .next blocks _
  | bad =>
    cases c2 with
    | noBlock b => exact .fault blocks _ _
    | ok b2 => exact .next blocks _
    | bad => exact .next blocks _
    | raised r => exact .next blocks _

theorem readWordAt_sameButBlocks (a : Addr) :
    SameButBlocks blocks (readWordAt a s) (readWordAt a { s with blocks := blocks }) := by
  by_cases hfast : a.toNat % 1024 < 1023
  · rw [readWordAt_fast hfast, readWordAt_fast hfast]
    exact readWordFast_sameButBlocks h hfast
  · rw [readWordAt_split (by omega), readWordAt_split (by omega)]
    exact readWordSplit_sameButBlocks h a

end

/-- Settles O38: the checks read lengths only, and every offset RB and RW read lies below PAGE_SIZE. -/
theorem bytesAbove1023AreNeverRead : Obligations.BytesAbove1023AreNeverRead := by
  unfold Obligations.BytesAbove1023AreNeverRead
  intro s t blocks i hi hlen hbyte hexec
  have agrees : s.AgreesBelowPageSize blocks := ⟨hlen, hbyte⟩
  rcases hi with ⟨a, rfl⟩ | ⟨a, rfl⟩
  · exact (readByteAt_sameButBlocks agrees a).checks .rb _ t hexec
  · exact (readWordAt_sameButBlocks agrees a).checks .rw _ t hexec

end Sys2Proof.Machine
end

section
/-! The family 20_memory.md: a step runs the command at the head of the request stream, a store is seen through every read entry that binds its block, and what the reads (TRANS, RB, RW, RESOLVE) change and answer. -/

namespace Sys2Proof.Machine

/-! ## The command a step runs -/

section

variable {s : State} {rest : List Word} (hf : s.fault = none) (hw : wholeStream s.requests = true)
include hf hw

theorem State.fetch_of_instr {i : Instr} (hd : decode s.requests = .command (.instr i) rest) :
    s.fetch = .run i { s with requests := rest } := by
  simp [State.fetch, hw, (State.not_latched_iff s).mpr hf, hd]

theorem State.fetch_of_reserved {op : Mnemonic} {w : Word} (hd : decode s.requests = .command (.reserved op w) rest) :
    s.fetch = .malformed op w { s with requests := rest } := by
  simp [State.fetch, hw, (State.not_latched_iff s).mpr hf, hd]

end

/-- Settles O15: on a whole stream with no fault latched, what is fetched is what the decoder reads. -/
theorem stepRunsTheDecodedCommand : Obligations.StepRunsTheDecodedCommand := by
  unfold Obligations.StepRunsTheDecodedCommand
  intro s rest hf hw
  refine ⟨fun i hd => ?_, fun op w hd => ?_⟩
  · show step s = _
    rw [step, State.fetch_of_instr hf hw hd]
  · show step s = _
    rw [step, State.fetch_of_reserved hf hw hd]

/-! ## A store and its aliases -/

/-- Outside an answer the response goes to the agent that issued the request (42_trap.md R111). -/
theorem State.respond_of_not_inTrap {s : State} (hi : s.inTrap = false) (w : Word) :
    s.respond w = { s with responses := s.responses ++ [{ recipient := .issuer, word := w }] } := by
  rw [State.respond, State.recipient_of_false hi]

/-- WB below the paging registers, where its byte is found, is the store and nothing more (41_access.md R92). -/
theorem exec_wb_found_low {s : State} {a : Addr} {b : BlockId} {n : Nat} (v : Byte) (hf : s.fault = none)
    (hi : s.inTrap = false) (ha : a.toNat < 0xFFFC) (hb : s.writeMap[a.toNat / 1024]? = some (.bound b))
    (hn : s.lenOf b = some n) (hlt : a.toNat % 1024 < n) :
    exec (.wb a v) s = .next (s.blkSet b (a.toNat % 1024) v) := by
  rw [exec_wb_found v hf hi hb hn hlt, afterStore_low ha]

/-- Settles O36: RB reads the arena the store left, in which one byte of one block is new. -/
theorem storeIsSeenExactlyThroughAliases : Obligations.StoreIsSeenExactlyThroughAliases := by
  unfold Obligations.StoreIsSeenExactlyThroughAliases
  intro s t a a' v old b b' n hs hf ha hb hn hlt hb' hold hexec
  obtain ⟨harena, -⟩ := State.wf_iff.mp hs
  have hi := State.wf_inTrap hs hf
  rw [exec_wb_found_low v hf hi ha hb hn hlt] at hexec
  cases hexec
  have hread : (s.blkSet b (a.toNat % 1024) v).readByte b' (a'.toNat % 1024) =
      some (if b' = b ∧ a'.toNat % 1024 = a.toNat % 1024 then v else old) := by
    rw [State.readByte_blkSet harena hn hlt, hold, apply_ite some]
  rw [exec_rb_found (s := s.blkSet b (a.toNat % 1024) v) hf hi hb' hread,
    State.respond_of_not_inTrap (s := s.blkSet b (a.toNat % 1024) v) hi]

/-! ## What a read does -/

/-- Past the latch and the reentrancy check. -/
theorem State.checks_eq_next {s t : State} {op : Mnemonic} {w : Word} {body : Host.Outcome State Fault Refusal}
    (h : s.unlessLatched (s.unlessInTrap op w body) = .next t) :
    (s.latched = true ∧ t = s) ∨ t = s.raise (reentrantRecord op w) ∨
      (s.fault = none ∧ s.inTrap = false ∧ body = .next t) := by
  rcases State.unlessLatched_eq_next h with hl | ⟨hf, h⟩
  · exact .inl hl
  rcases State.unlessInTrap_eq_next h with ⟨-, e⟩ | ⟨hi, h⟩
  · exact .inr (.inl e)
  · exact .inr (.inr ⟨hf, hi, h⟩)

/-- RW where both its bytes are found: on either path they are the bytes at `a` and `a + 1` (41_access.md R93-R95). -/
theorem exec_rw_found {s : State} {a : Addr} {b1 b2 : BlockId} {low high : Byte} (hf : s.fault = none)
    (hi : s.inTrap = false) (hb1 : s.readMap[a.toNat / 1024]? = some (.bound b1))
    (hlow : s.readByte b1 (a.toNat % 1024) = some low)
    (hb2 : s.readMap[(a.toNat + 1) / 1024]? = some (.bound b2))
    (hhigh : s.readByte b2 ((a.toNat + 1) % 1024) = some high) :
    exec (.rw a) s = .next (s.respond ((littleEndian low high).setWidth 32)) := by
  obtain ⟨n1, hn1, hlt1⟩ := State.readByte_isSome_iff.mp ⟨low, hlow⟩
  obtain ⟨n2, hn2, hlt2⟩ := State.readByte_isSome_iff.mp ⟨high, hhigh⟩
  rw [exec_rw_body hf hi]
  by_cases hfast : a.toNat % 1024 < 1023
  · have hpage : (a.toNat + 1) / 1024 = a.toNat / 1024 := by omega
    have hoff : (a.toNat + 1) % 1024 = a.toNat % 1024 + 1 := by omega
    obtain rfl : b1 = b2 := by simpa [hpage, hb1] using hb2
    rw [hoff] at hhigh hlt2
    rw [readWordAt_fast hfast, readWordFast]
    simp only [pageOf_widen, offsetOf_widen]
    rw [State.check_ok (d := .r) hb1 hn2 (by omega)]
    simp only [State.blkGet_of_readByte hlow, State.blkGet_of_readByte hhigh]
  · rw [readWordAt_split (by omega), readWordSplit]
    simp only [pageOf_widen, offsetOf_widen, pageOf_highByteAddr, offsetOf_highByteAddr]
    rw [State.check_ok (d := .r) hb1 hn1 hlt1, State.check_ok (d := .r) hb2 hn2 hlt2]
    simp only [State.blkGet_of_readByte hlow, State.blkGet_of_readByte hhigh]

theorem resolveEntry_bound {s : State} {d : Dir} {p : Page} {b : BlockId} (h : s.entry d p.toNat = .bound b) :
    resolveEntry d p s = s.respond (boundResponse b) := by
  simp only [resolveEntry, h]

/-- The states a read, or an illegal word, can answer: as it was behind a latched fault, a fault latched, a free value in Release, or a response that the same command gives again (20_memory.md R47). -/
inductive ReadAnswer (i : Instr) (s : State) : State → Prop
  | latched (h : s.latched = true) : ReadAnswer i s s
  | raised (r : FaultRecord) : ReadAnswer i s (s.raise r)
  | released (h : s.mode = .release) (w : Word) (draws : Nat) : ReadAnswer i s { s.respond w with draws := draws }
  | answered (w : Word) (again : exec i (s.respond w) = .next ((s.respond w).respond w)) :
    ReadAnswer i s (s.respond w)

theorem exec_trans_readAnswer {s t : State} {a : Addr} (h : exec (.trans a) s = .next t) :
    ReadAnswer (.trans a) s t := by
  rcases State.unlessLatched_eq_next h with ⟨hl, rfl⟩ | ⟨hf, h⟩
  · exact .latched hl
  · cases h
    exact .answered _ (State.unlessLatched_of_none (s := s.respond _) hf _)

theorem exec_rb_readAnswer {s t : State} {a : Addr} (h : exec (.rb a) s = .next t) : ReadAnswer (.rb a) s t := by
  rcases State.checks_eq_next h with ⟨hl, rfl⟩ | rfl | ⟨hf, hi, h⟩
  · exact .latched hl
  · exact .raised _
  rcases readByteAt_cases a s with ⟨b, v, hb, hv, e⟩ | ⟨hm, e⟩ | ⟨r, -, e, -⟩ | ⟨b, -, -, e⟩ <;> rw [e] at h <;> cases h
  · exact .answered _ (exec_rb_found (s := s.respond _) hf hi hb hv)
  · exact .released hm _ _
  · exact .raised r

theorem exec_rw_readAnswer {s t : State} {a : Addr} (h : exec (.rw a) s = .next t) : ReadAnswer (.rw a) s t := by
  rcases State.checks_eq_next h with ⟨hl, rfl⟩ | rfl | ⟨hf, hi, h⟩
  · exact .latched hl
  · exact .raised _
  rcases readWordAt_cases a s with ⟨b1, b2, low, high, hb1, hlow, hb2, hhigh, e⟩ | ⟨hm, e⟩ | ⟨r, -, e, -⟩ | ⟨p, b, -, -, e⟩ <;>
    rw [e] at h <;> cases h
  · exact .answered _ (exec_rw_found (s := s.respond _) hf hi hb1 hlow hb2 hhigh)
  · exact .released hm _ _
  · exact .raised r

theorem exec_resolve_readAnswer {s t : State} {d : Dir} {p : Page} (h : exec (.resolve d p) s = .next t) :
    ReadAnswer (.resolve d p) s t := by
  rcases State.unlessLatched_eq_next h with ⟨hl, rfl⟩ | ⟨hf, h⟩
  · exact .latched hl
  cases h
  rcases resolveEntry_cases d p s with ⟨b, hb, e⟩ | ⟨-, hm, e⟩ | ⟨-, -, r, e, -⟩ <;> rw [e]
  · refine .answered _ ((State.unlessLatched_of_none (s := s.respond _) hf _).trans ?_)
    rw [resolveEntry_bound (s := s.respond _) hb]
  · exact .released hm _ s.draws
  · exact .raised r

theorem exec_illegal_readAnswer {s t : State} {w : Word} (h : exec (.illegal w) s = .next t) :
    ReadAnswer (.illegal w) s t := by
  rcases State.unlessLatched_eq_next h with ⟨hl, rfl⟩ | ⟨-, h⟩
  · exact .latched hl
  · cases h
    exact .raised _

/-- A read appends responses, latches a fault or takes free values, and does nothing else (41_access.md R91). -/
theorem ReadAnswer.frame {i : Instr} {s t : State} (h : ReadAnswer i s t) :
    t = { s with responses := t.responses, fault := t.fault, draws := t.draws } := by
  cases h <;> rfl

/-- In Debug mode a read that completes answers a response that the same command gives again. -/
theorem ReadAnswer.answered_of_debug {i : Instr} {s t : State} (h : ReadAnswer i s t) (hm : s.mode = .debug)
    (hf : s.fault = none) (ht : t.fault = none) :
    ∃ w, t = s.respond w ∧ exec i (s.respond w) = .next ((s.respond w).respond w) := by
  cases h with
  | latched hl => exact absurd hf ((State.latched_iff s).mp hl)
  | raised r => cases ht
  | released hm' => exact absurd (hm.symm.trans hm') (by decide)
  | answered w again => exact ⟨w, rfl, again⟩

theorem State.recipient_respond (s : State) (w : Word) : (s.respond w).recipient = s.recipient := rfl

theorem State.respond_respond (s : State) (w : Word) :
    (s.respond w).respond w =
      { s with responses := s.responses ++
        [{ recipient := s.recipient, word := w }, { recipient := s.recipient, word := w }] } := by
  rw [State.respond, State.recipient_respond, State.respond_responses, List.append_assoc]
  rfl

/-- Every read, and an illegal word, answers as `ReadAnswer` says. -/
theorem exec_readAnswer {i : Instr} {s t : State}
    (hi : (∃ a, i = .trans a) ∨ (∃ a, i = .rb a) ∨ (∃ a, i = .rw a) ∨ (∃ d p, i = .resolve d p) ∨ (∃ w, i = .illegal w))
    (h : exec i s = .next t) : ReadAnswer i s t := by
  rcases hi with ⟨a, rfl⟩ | ⟨a, rfl⟩ | ⟨a, rfl⟩ | ⟨d, p, rfl⟩ | ⟨w, rfl⟩
  · exact exec_trans_readAnswer h
  · exact exec_rb_readAnswer h
  · exact exec_rw_readAnswer h
  · exact exec_resolve_readAnswer h
  · exact exec_illegal_readAnswer h

/-- Settles O39: the one way a read completes in Debug mode is the response it gives again. -/
theorem readsAreRepeatable : Obligations.ReadsAreRepeatable := by
  unfold Obligations.ReadsAreRepeatable
  intro s t i hi hm hf hexec ht
  have hread := exec_readAnswer (hi.imp_right (.imp_right (.imp_right .inl))) hexec
  obtain ⟨w, rfl, again⟩ := hread.answered_of_debug hm hf ht
  rw [State.respond_respond] at again
  exact ⟨{ recipient := s.recipient, word := w }, rfl, again⟩

/-- Settles O40: the frame of a read, whose blocks are those of before. -/
theorem readFrame : Obligations.ReadFrame := by
  unfold Obligations.ReadFrame
  intro s t i hi hexec
  have hframe := (exec_readAnswer hi hexec).frame
  have hblocks : t.blocks = s.blocks := by rw [hframe]
  exact ⟨hframe, State.readByte_congr hblocks⟩

end Sys2Proof.Machine
end

section
/-! The family 30_encoding.md: the layouts as concatenations of their fields, decode against encode in both directions, the framing of streams, what illegal words and reserved bits raise, and the pseudo-instructions. -/

namespace Sys2Proof

/-! ## Words as concatenations of their fields -/

/-- A mask acts on each field of a word by itself. -/
theorem and_append_eq_append_iff {n m : Nat} {a a' p : BitVec n} {b b' q : BitVec m} :
    (a ++ b) &&& (a' ++ b') = p ++ q ↔ a &&& a' = p ∧ b &&& b' = q := by
  rw [BitVec.and_append]
  refine ⟨fun h => ⟨?_, ?_⟩, fun ⟨ha, hb⟩ => by rw [ha, hb]⟩
  · simpa only [BitVec.extractLsb'_append_eq_left] using congrArg (BitVec.extractLsb' m n) h
  · simpa only [BitVec.extractLsb'_append_eq_right] using congrArg (BitVec.extractLsb' 0 m) h

theorem exists_eq_append {n m : Nat} (w : BitVec (n + m)) : ∃ (high : BitVec n) (low : BitVec m), w = high ++ low :=
  ⟨_, _, BitVec.extractLsb'_append_extractLsb'.symm⟩

theorem exists_eq_append_half (w : Word) : ∃ high low : BitVec 16, w = high ++ low :=
  exists_eq_append (n := 16) (m := 16) w

/-- The fields of WB's layout (30_encoding.md R66). -/
theorem exists_eq_append_wb (w : Word) : ∃ (high : BitVec 8) (data : Byte) (addr : Addr), w = high ++ data ++ addr := by
  obtain ⟨upper, addr, rfl⟩ := exists_eq_append_half w
  obtain ⟨high, data, rfl⟩ := exists_eq_append (n := 8) (m := 8) upper
  exact ⟨high, data, addr, rfl⟩

/-- The fields of the layouts of BIND and RESOLVE (30_encoding.md R68, R69). -/
theorem exists_eq_append_bind (w : Word) :
    ∃ (high : BitVec 7) (d : BitVec 1) (z : BitVec 2) (page : Page) (low : BitVec 16), w = high ++ d ++ z ++ page ++ low := by
  obtain ⟨upper, low, rfl⟩ := exists_eq_append_half w
  obtain ⟨upper, page, rfl⟩ := exists_eq_append (n := 10) (m := 6) upper
  obtain ⟨upper, z, rfl⟩ := exists_eq_append (n := 8) (m := 2) upper
  obtain ⟨high, d, rfl⟩ := exists_eq_append (n := 7) (m := 1) upper
  exact ⟨high, d, z, page, low, rfl⟩

/-! ## The fields of a concatenation -/

@[simp] theorem addrField_append (high : BitVec 16) (addr : Addr) : addrField (high ++ addr) = addr :=
  BitVec.extractLsb'_append_eq_right

@[simp] theorem blkField_append (high : BitVec 16) (blk : BlockId) : blkField (high ++ blk) = blk :=
  BitVec.extractLsb'_append_eq_right

@[simp] theorem dataField_append (high : BitVec 8) (data : Byte) (addr : Addr) :
    dataField (high ++ data ++ addr) = data := by
  have hupper : dataField (high ++ data ++ addr) = (high ++ data).extractLsb' 0 8 :=
    BitVec.extractLsb'_append_eq_of_le (by decide)
  rw [hupper, BitVec.extractLsb'_append_eq_right]

@[simp] theorem pageField_append (high : BitVec 10) (page : Page) (low : BitVec 16) :
    pageField (high ++ page ++ low) = page := by
  have hupper : pageField (high ++ page ++ low) = (high ++ page).extractLsb' 0 6 :=
    BitVec.extractLsb'_append_eq_of_le (by decide)
  rw [hupper, BitVec.extractLsb'_append_eq_right]

/-- The direction whose bit is `d` (30_encoding.md R62). -/
def dirOfBit (d : BitVec 1) : Dir := if d = 1#1 then .w else .r

@[simp] theorem bit_dirOfBit : ∀ d : BitVec 1, (dirOfBit d).bit = d := by decide

@[simp] theorem dirOfBit_bit (d : Dir) : dirOfBit d.bit = d := by cases d <;> rfl

@[simp] theorem dirField_append (high : BitVec 7) (d : BitVec 1) (z : BitVec 2) (page : Page) (low : BitVec 16) :
    dirField (high ++ d ++ z ++ page ++ low) = dirOfBit d := by
  have hbit : (high ++ d ++ z ++ page ++ low).getLsbD 24 = d.getLsbD 0 := by
    rw [BitVec.getLsbD_append, BitVec.getLsbD_append, BitVec.getLsbD_append, BitVec.getLsbD_append]
    rfl
  have hd : ∀ d : BitVec 1, (if d.getLsbD 0 then Dir.w else .r) = dirOfBit d := by decide
  rw [← hd, ← hbit]
  rfl

/-! ## The masks of the layouts -/

theorem reservedClear_iff {op : Mnemonic} {w : Word} : reservedClear op w = true ↔ w &&& op.mask = op.pattern :=
  beq_iff_eq

theorem and_half_mask_iff (p high low : BitVec 16) :
    (high ++ low) &&& 0xFFFF0000#32 = p ++ 0#16 ↔ high = p := by
  rw [show 0xFFFF0000#32 = BitVec.allOnes 16 ++ 0#16 by decide, and_append_eq_append_iff, BitVec.and_allOnes,
    BitVec.and_zero, eq_self, and_true]

theorem half_mask_append (p low : BitVec 16) : (p ++ low) &&& 0xFFFF0000#32 = p ++ 0#16 :=
  (and_half_mask_iff p p low).mpr rfl

/-- A word whose upper half is fixed is that half and bits 15:0. -/
theorem append_low_of_half_mask {w : Word} {p : BitVec 16} (h : w &&& 0xFFFF0000#32 = p ++ 0#16) :
    p ++ w.extractLsb' 0 16 = w := by
  obtain ⟨high, low, rfl⟩ := exists_eq_append_half w
  obtain rfl := (and_half_mask_iff p high low).mp h
  rw [BitVec.extractLsb'_append_eq_right]

/-- Bits 31:16 of COPY's word 1 as a mask (30_encoding.md R70). -/
theorem copyWordClear_iff {w : Word} : copyWordClear w = true ↔ w &&& 0xFFFF0000#32 = 0#32 := by
  obtain ⟨high, low, rfl⟩ := exists_eq_append_half w
  have hhigh : (high ++ low).extractLsb' 16 16 = high := BitVec.extractLsb'_append_eq_left
  rw [copyWordClear, hhigh, beq_iff_eq]
  exact (and_half_mask_iff 0#16 high low).symm

theorem reservedClear_wb_append (high : BitVec 8) (data : Byte) (addr : Addr) :
    reservedClear .wb (high ++ data ++ addr) = true ↔ high = 0x20#8 := by
  rw [reservedClear_iff, show Mnemonic.wb.mask = BitVec.allOnes 8 ++ 0#8 ++ 0#16 by decide,
    show Mnemonic.wb.pattern = 0x20#8 ++ 0#8 ++ 0#16 by decide, and_append_eq_append_iff, and_append_eq_append_iff]
  simp only [BitVec.and_allOnes, BitVec.and_zero, and_true]

theorem reservedClear_bind_append (high : BitVec 7) (d : BitVec 1) (z : BitVec 2) (page : Page) (blk : BlockId) :
    reservedClear .bind (high ++ d ++ z ++ page ++ blk) = true ↔ high = 0b0100000#7 ∧ z = 0#2 := by
  rw [reservedClear_iff, show Mnemonic.bind.mask = BitVec.allOnes 7 ++ 0#1 ++ BitVec.allOnes 2 ++ 0#6 ++ 0#16 by decide,
    show Mnemonic.bind.pattern = 0b0100000#7 ++ 0#1 ++ 0#2 ++ 0#6 ++ 0#16 by decide,
    and_append_eq_append_iff, and_append_eq_append_iff, and_append_eq_append_iff, and_append_eq_append_iff]
  simp only [BitVec.and_allOnes, BitVec.and_zero, and_true]

theorem reservedClear_resolve_append (high : BitVec 7) (d : BitVec 1) (z : BitVec 2) (page : Page) (low : BitVec 16) :
    reservedClear .resolve (high ++ d ++ z ++ page ++ low) = true ↔ high = 0b0101000#7 ∧ z = 0#2 ∧ low = 0#16 := by
  rw [reservedClear_iff,
    show Mnemonic.resolve.mask = BitVec.allOnes 7 ++ 0#1 ++ BitVec.allOnes 2 ++ 0#6 ++ BitVec.allOnes 16 by decide,
    show Mnemonic.resolve.pattern = 0b0101000#7 ++ 0#1 ++ 0#2 ++ 0#6 ++ 0#16 by decide,
    and_append_eq_append_iff, and_append_eq_append_iff, and_append_eq_append_iff, and_append_eq_append_iff]
  simp only [BitVec.and_allOnes, BitVec.and_zero, and_true, and_assoc]

theorem reservedClear_reset_iff {w : Word} : reservedClear .reset w = true ↔ w = 0x70000000#32 := by
  rw [reservedClear_iff, show Mnemonic.reset.mask = BitVec.allOnes 32 by decide, BitVec.and_allOnes]
  rfl

/-- The illegal space is the words with bit 31 set (30_encoding.md R74). -/
theorem reservedClear_illegal_iff {w : Word} : reservedClear .illegal w = true ↔ w.getLsbD 31 = true := by
  obtain ⟨b, low, rfl⟩ := exists_eq_append (n := 1) (m := 31) w
  rw [reservedClear_iff, show Mnemonic.illegal.mask = BitVec.allOnes 1 ++ 0#31 by decide,
    show Mnemonic.illegal.pattern = 1#1 ++ 0#31 by decide, and_append_eq_append_iff]
  have hb : ∀ b : BitVec 1, b = 1#1 ↔ b.getLsbD 0 = true := by decide
  rw [BitVec.getLsbD_append, BitVec.and_allOnes, BitVec.and_zero, hb]
  simp

/-! ## What the decoder reads at the head of a stream -/

/-- A word's mask and match value fix its opcode: no word is of two rows (30_encoding.md R61). -/
theorem ofOpcode_of_reservedClear {op : Mnemonic} {w : Word} (h : reservedClear op w = true) :
    Mnemonic.ofOpcode (opcode w) = op := by
  have hop : opcode w &&& opcode op.mask = opcode op.pattern := by
    rw [← reservedClear_iff.mp h]
    exact BitVec.extractLsb'_and.symm
  have table : ∀ o : BitVec 4, o &&& opcode op.mask = opcode op.pattern → Mnemonic.ofOpcode o = op := by
    cases op <;> decide
  exact table _ hop

theorem opcode_eq_of_div {w : Word} {n : Nat} (h : w.toNat / 2 ^ 28 = n) : opcode w = BitVec.ofNat 4 n := by
  rw [← h, ← Laws.Framing.toNat_opcode, BitVec.ofNat_toNat, BitVec.setWidth_eq]

/-- Any row but COPY takes one word (30_encoding.md R76). -/
theorem decode_oneWord {op : Mnemonic} {w : Word} (hop : Mnemonic.ofOpcode (opcode w) = op) (hne : op ≠ .copy)
    (rest : List Word) : decode (w :: rest) = .command (decodeWord op w) rest := by
  subst hop
  simp only [decode]

/-- COPY takes five words (30_encoding.md R76). -/
theorem decode_fiveWords {w0 : Word} (hop : Mnemonic.ofOpcode (opcode w0) = .copy) (w1 w2 w3 w4 : Word)
    (rest : List Word) : decode (w0 :: w1 :: w2 :: w3 :: w4 :: rest) = .command (decodeCopy w0 w1 w2 w3 w4) rest := by
  simp only [decode, hop]

/-- Everything the decoder can take: one word, or the five words of a COPY. -/
theorem decode_eq_command {ws rest : List Word} {c : Command} (h : decode ws = .command c rest) :
    (∃ op w, op ≠ .copy ∧ ws = w :: rest ∧ c = decodeWord op w) ∨
    (∃ w0 w1 w2 w3 w4, ws = w0 :: w1 :: w2 :: w3 :: w4 :: rest ∧ c = decodeCopy w0 w1 w2 w3 w4) := by
  cases ws with
  | nil => simp [decode] at h
  | cons w operands =>
    simp only [decode] at h
    split at h
    · split at h
      next w1 w2 w3 w4 rest' =>
        cases h
        exact .inr ⟨w, w1, w2, w3, w4, rfl, rfl⟩
      next => cases h
    next hne =>
      cases h
      exact .inl ⟨_, w, hne, rfl, rfl⟩

/-- A word without a reserved bit of its row set spells the row's command. -/
theorem decode_of_reservedClear {op : Mnemonic} {w : Word} (hclear : reservedClear op w = true) (hne : op ≠ .copy)
    (rest : List Word) : decode (w :: rest) = .command (decodeWord op w) rest :=
  decode_oneWord (ofOpcode_of_reservedClear hclear) hne rest

/-- A word with a reserved bit of its row set spells no command (30_encoding.md R75). -/
theorem decodeWord_of_not_reservedClear {op : Mnemonic} {w : Word} (h : ¬ reservedClear op w = true) :
    decodeWord op w = .reserved op w :=
  if_neg h

/-! ## The command of each row -/

section

variable {w : Word} (rest : List Word)

theorem decode_trans (h : reservedClear .trans w = true) : decode (w :: rest) = .command (.instr (.trans (addrField w))) rest :=
  (decode_of_reservedClear h (by decide) rest).trans (by rw [decodeWord, if_pos h])

theorem decode_rb (h : reservedClear .rb w = true) : decode (w :: rest) = .command (.instr (.rb (addrField w))) rest :=
  (decode_of_reservedClear h (by decide) rest).trans (by rw [decodeWord, if_pos h])

theorem decode_wb (h : reservedClear .wb w = true) :
    decode (w :: rest) = .command (.instr (.wb (addrField w) (dataField w))) rest :=
  (decode_of_reservedClear h (by decide) rest).trans (by rw [decodeWord, if_pos h])

theorem decode_rw (h : reservedClear .rw w = true) : decode (w :: rest) = .command (.instr (.rw (addrField w))) rest :=
  (decode_of_reservedClear h (by decide) rest).trans (by rw [decodeWord, if_pos h])

theorem decode_bind (h : reservedClear .bind w = true) :
    decode (w :: rest) = .command (.instr (.bind (dirField w) (pageField w) (blkField w))) rest :=
  (decode_of_reservedClear h (by decide) rest).trans (by rw [decodeWord, if_pos h])

theorem decode_resolve (h : reservedClear .resolve w = true) :
    decode (w :: rest) = .command (.instr (.resolve (dirField w) (pageField w))) rest :=
  (decode_of_reservedClear h (by decide) rest).trans (by rw [decodeWord, if_pos h])

theorem decode_reset (h : reservedClear .reset w = true) : decode (w :: rest) = .command (.instr .reset) rest :=
  (decode_of_reservedClear h (by decide) rest).trans (by rw [decodeWord, if_pos h])

theorem decode_illegal (h : reservedClear .illegal w = true) : decode (w :: rest) = .command (.instr (.illegal w)) rest :=
  (decode_of_reservedClear h (by decide) rest).trans (by rw [decodeWord, if_pos h])

theorem decode_copy {w1 : Word} (h : reservedClear .copy w = true) (h1 : copyWordClear w1 = true) (w2 w3 w4 : Word) :
    decode (w :: w1 :: w2 :: w3 :: w4 :: rest) = .command (.instr (.copy (blkField w) w2 (blkField w1) w3 w4)) rest :=
  (decode_fiveWords (ofOpcode_of_reservedClear h) w1 w2 w3 w4 rest).trans (by simp [decodeCopy, h, h1])

end

/-! ## Decode and encode -/

/-- The decoder reads a request back from its words, whatever follows (30_encoding.md R73). -/
theorem decode_encode {i : Instr} (hi : i.wfRequest = true) (rest : List Word) :
    decode (encode i ++ rest) = .command (.instr i) rest := by
  cases i with
  | trans addr =>
    exact (decode_trans rest (reservedClear_iff.mpr (half_mask_append 0x0000#16 addr))).trans (by rw [addrField_append])
  | rb addr =>
    exact (decode_rb rest (reservedClear_iff.mpr (half_mask_append 0x1000#16 addr))).trans (by rw [addrField_append])
  | wb addr data =>
    exact (decode_wb rest ((reservedClear_wb_append 0x20#8 data addr).mpr rfl)).trans
      (by rw [addrField_append, dataField_append])
  | rw addr =>
    exact (decode_rw rest (reservedClear_iff.mpr (half_mask_append 0x3000#16 addr))).trans (by rw [addrField_append])
  | bind dir page blk =>
    exact (decode_bind rest ((reservedClear_bind_append 0b0100000#7 dir.bit 0#2 page blk).mpr ⟨rfl, rfl⟩)).trans
      (by rw [dirField_append, dirOfBit_bit, pageField_append, blkField_append])
  | resolve dir page =>
    exact (decode_resolve rest ((reservedClear_resolve_append 0b0101000#7 dir.bit 0#2 page 0#16).mpr ⟨rfl, rfl, rfl⟩)).trans
      (by rw [dirField_append, dirOfBit_bit, pageField_append])
  | copy srcBlk srcPos destBlk destPos length =>
    exact (decode_copy rest (reservedClear_iff.mpr (half_mask_append 0x6000#16 srcBlk))
      (copyWordClear_iff.mpr (half_mask_append 0#16 destBlk)) srcPos destPos length).trans
      (by rw [blkField_append, blkField_append])
  | reset => exact decode_reset rest (reservedClear_reset_iff.mpr rfl)
  | illegal word => exact decode_illegal rest (reservedClear_illegal_iff.mpr hi)
  | notify k v => cases hi

/-- A one-word command is well-formed and encoded by the word it was read from: every bit of it is a field or fixed. -/
theorem encode_of_decodeWord {op : Mnemonic} {w : Word} {i : Instr} (h : decodeWord op w = .instr i) :
    i.wfRequest = true ∧ encode i = [w] := by
  have hclear : reservedClear op w = true := by
    by_contra hnot
    rw [decodeWord_of_not_reservedClear hnot] at h
    cases h
  rw [decodeWord.eq_def, if_pos hclear] at h
  cases op <;> cases h
  case trans =>
    have hw : 0x0000#16 ++ addrField w = w := append_low_of_half_mask (reservedClear_iff.mp hclear)
    exact ⟨rfl, by rw [encode, hw]⟩
  case rb =>
    have hw : 0x1000#16 ++ addrField w = w := append_low_of_half_mask (reservedClear_iff.mp hclear)
    exact ⟨rfl, by rw [encode, hw]⟩
  case wb =>
    obtain ⟨high, data, addr, rfl⟩ := exists_eq_append_wb w
    obtain rfl := (reservedClear_wb_append high data addr).mp hclear
    exact ⟨rfl, by rw [addrField_append, dataField_append, encode]⟩
  case rw =>
    have hw : 0x3000#16 ++ addrField w = w := append_low_of_half_mask (reservedClear_iff.mp hclear)
    exact ⟨rfl, by rw [encode, hw]⟩
  case bind =>
    obtain ⟨high, d, z, page, blk, rfl⟩ := exists_eq_append_bind w
    obtain ⟨rfl, rfl⟩ := (reservedClear_bind_append high d z page blk).mp hclear
    exact ⟨rfl, by rw [dirField_append, pageField_append, blkField_append, encode, bit_dirOfBit]⟩
  case resolve =>
    obtain ⟨high, d, z, page, low, rfl⟩ := exists_eq_append_bind w
    obtain ⟨rfl, rfl, rfl⟩ := (reservedClear_resolve_append high d z page low).mp hclear
    exact ⟨rfl, by rw [dirField_append, pageField_append, encode, bit_dirOfBit]⟩
  case reset => exact ⟨rfl, by rw [reservedClear_reset_iff.mp hclear, encode]⟩
  case illegal => exact ⟨reservedClear_illegal_iff.mp hclear, rfl⟩

/-- A COPY is encoded by the five words it was read from. -/
theorem encode_of_decodeCopy {w0 w1 w2 w3 w4 : Word} {i : Instr} (h : decodeCopy w0 w1 w2 w3 w4 = .instr i) :
    i.wfRequest = true ∧ encode i = [w0, w1, w2, w3, w4] := by
  rw [decodeCopy] at h
  split at h
  next hclear =>
    cases h
    obtain ⟨hclear0, hclear1⟩ := (Bool.and_eq_true _ _).mp hclear
    have hw0 : 0x6000#16 ++ blkField w0 = w0 := append_low_of_half_mask (reservedClear_iff.mp hclear0)
    have hw1 : 0#16 ++ blkField w1 = w1 := append_low_of_half_mask (copyWordClear_iff.mp hclear1)
    exact ⟨rfl, by rw [encode, hw0, hw1]⟩
  next => cases h

/-! ## The notification word -/

theorem notificationWord_zeroField (k : RegIndex) (v : Byte) : (notificationWord k v).extractLsb' 10 22 = 0#22 := by
  have hupper : (notificationWord k v).extractLsb' 10 22 = (0#22 ++ k).extractLsb' 2 22 :=
    BitVec.extractLsb'_append_eq_of_le (by decide)
  rw [hupper, BitVec.extractLsb'_append_eq_left]

theorem notificationWord_kField (k : RegIndex) (v : Byte) : (notificationWord k v).extractLsb' 8 2 = k := by
  have hupper : (notificationWord k v).extractLsb' 8 2 = (0#22 ++ k).extractLsb' 0 2 :=
    BitVec.extractLsb'_append_eq_of_le (by decide)
  rw [hupper, BitVec.extractLsb'_append_eq_right]

theorem notificationWord_vField (k : RegIndex) (v : Byte) : (notificationWord k v).extractLsb' 0 8 = v :=
  BitVec.extractLsb'_append_eq_right

/-- Settles O11: each field of a concatenation is the piece it stands for, and its value is put together from them. -/
theorem notificationWordLayout : Obligations.NotificationWordLayout := by
  unfold Obligations.NotificationWordLayout
  intro k v
  refine ⟨notificationWord_zeroField k v, notificationWord_kField k v, notificationWord_vField k v, ?_⟩
  rw [notificationWord, Laws.Framing.toNat_fields, Laws.Framing.toNat_fields]
  simp

/-- Settles O2: `decode_encode`, and the three fields of a notification word. -/
theorem decodeOfEncodeIsTheCommand : Obligations.DecodeOfEncodeIsTheCommand := by
  unfold Obligations.DecodeOfEncodeIsTheCommand
  refine ⟨fun i rest hi => decode_encode hi rest, fun k v => ?_⟩
  rw [decodeNotification, if_pos (notificationWord_zeroField k v), notificationWord_kField, notificationWord_vField]

/-- Settles O3: whether the decoder took one word or a COPY's five, the command is encoded by just those. -/
theorem encodeOfDecodeIsTheWords : Obligations.EncodeOfDecodeIsTheWords := by
  unfold Obligations.EncodeOfDecodeIsTheWords
  intro ws rest i h
  rcases decode_eq_command h with ⟨op, w, -, rfl, hw⟩ | ⟨w0, w1, w2, w3, w4, rfl, hw⟩
  · obtain ⟨hwf, he⟩ := encode_of_decodeWord hw.symm
    exact ⟨hwf, by rw [he]; rfl⟩
  · obtain ⟨hwf, he⟩ := encode_of_decodeCopy hw.symm
    exact ⟨hwf, by rw [he]; rfl⟩

/-! ## Streams -/

/-- With a word of fuel for each word, the words of requests decode to them, command by command. -/
theorem decodeUpTo_flatMap_encode {is : List Instr} (his : ∀ i ∈ is, i.wfRequest = true) {n : Nat}
    (hn : (is.flatMap encode).length ≤ n) : decodeUpTo n (is.flatMap encode) = some (is.map .instr) := by
  induction is generalizing n with
  | nil => cases n <;> rfl
  | cons i is ih =>
    rw [List.flatMap_cons] at hn ⊢
    have hd := decode_encode (his i List.mem_cons_self) (is.flatMap encode)
    have hlt := decode_rest_length hd
    cases n with
    | zero => omega
    | succ n =>
      rw [decodeUpTo, hd]
      simp only [ih (fun j hj => his j (List.mem_cons_of_mem i hj)) (by omega : _ ≤ n), Option.map_some, List.map_cons]

theorem decodeAll_flatMap_encode {is : List Instr} (his : ∀ i ∈ is, i.wfRequest = true) :
    decodeAll (is.flatMap encode) = some (is.map .instr) :=
  decodeUpTo_flatMap_encode his le_rfl

/-- The decoder reads exactly the whole streams (30_encoding.md R76). -/
theorem isSome_decodeAll (ws : List Word) : (decodeAll ws).isSome = wholeStream ws := isSome_decodeUpTo le_rfl

theorem wholeStream_flatMap_encode {is : List Instr} (his : ∀ i ∈ is, i.wfRequest = true) :
    wholeStream (is.flatMap encode) = true := by
  rw [← isSome_decodeAll, decodeAll_flatMap_encode his]
  rfl

/-- Settles O9: the stream decodes command by command, and a stream that decodes is whole. -/
theorem encodedStreamDecodesToItsCommands : Obligations.EncodedStreamDecodesToItsCommands := by
  unfold Obligations.EncodedStreamDecodesToItsCommands
  exact fun _ his => ⟨wholeStream_flatMap_encode his, decodeAll_flatMap_encode his⟩

/-- Settles O10: `isSome_decodeAll`, by induction on the fuel in `isSome_decodeUpTo`. -/
theorem decoderRefusesExactlyIncompleteStreams : Obligations.DecoderRefusesExactlyIncompleteStreams := by
  unfold Obligations.DecoderRefusesExactlyIncompleteStreams
  exact fun ws => (isSome_decodeAll ws).symm

/-- A stream shorter than the operand words still due is not whole. -/
theorem wholeFrom_of_length_lt {n : Nat} {ws : List Word} (h : ws.length < n) : wholeFrom n ws = false := by
  induction ws generalizing n with
  | nil =>
    cases n with
    | zero => cases h
    | succ n => rfl
  | cons w ws ih =>
    cases n with
    | zero => cases h
    | succ n => exact ih (Nat.lt_of_succ_lt_succ h)

/-- Whole commands and then a COPY without all its operand words are no whole stream (30_encoding.md R76). -/
theorem wholeStream_append_truncatedCopy {ws operands : List Word} (hws : wholeStream ws = true) {w : Word}
    (hw : w.toNat / 2 ^ 28 = 6) (hlen : operands.length < 4) : wholeStream (ws ++ w :: operands) = false := by
  rw [wholeStream, wholeFrom_append hws, wholeFrom, Laws.Framing.words_of_copy hw]
  exact wholeFrom_of_length_lt hlen

/-! ## The layouts of the rules -/

theorem extractLsb'_eq_setWidth_ushiftRight {n : Nat} (w : BitVec n) (start len : Nat) :
    w.extractLsb' start len = (w >>> start).setWidth len :=
  BitVec.eq_of_toNat_eq (by simp)

theorem addrField_eq_setWidth (w : Word) : addrField w = w.setWidth 16 :=
  (BitVec.setWidth_eq_extractLsb' (by decide)).symm

theorem blkField_eq_setWidth (w : Word) : blkField w = w.setWidth 16 := addrField_eq_setWidth w

theorem dirField_eq_ite (w : Word) : dirField w = if w.toNat / 2 ^ 24 % 2 = 1 then .w else .r := by
  simp only [dirField, BitVec.getLsbD, Nat.testBit_eq_decide_div_mod_eq, decide_eq_true_eq]

/-- Settles O4: each row's mask and match value are those of its rule, and its fields the bits the rule names. -/
theorem layoutsAsTabled : Obligations.LayoutsAsTabled := by
  unfold Obligations.LayoutsAsTabled
  intro w rest
  rw [← addrField_eq_setWidth, ← dirField_eq_ite, ← extractLsb'_eq_setWidth_ushiftRight,
    ← extractLsb'_eq_setWidth_ushiftRight]
  exact ⟨fun h => decode_trans rest (reservedClear_iff.mpr h), fun h => decode_rb rest (reservedClear_iff.mpr h),
    fun h => decode_wb rest (reservedClear_iff.mpr h), fun h => decode_rw rest (reservedClear_iff.mpr h),
    fun h => decode_bind rest (reservedClear_iff.mpr h), fun h => decode_resolve rest (reservedClear_iff.mpr h),
    fun h => decode_reset rest (reservedClear_reset_iff.mpr h)⟩

/-- Settles O5: the two masked words have no reserved bit set. -/
theorem copyLayoutAsTabled : Obligations.CopyLayoutAsTabled := by
  unfold Obligations.CopyLayoutAsTabled
  intro w0 w1 w2 w3 w4 rest h0 h1
  rw [← blkField_eq_setWidth, ← blkField_eq_setWidth]
  exact decode_copy rest (reservedClear_iff.mpr h0) (copyWordClear_iff.mpr h1) w2 w3 w4

/-- Settles O1: the decoder evaluated on each word. -/
theorem testVectorWordsDecode : Obligations.TestVectorWordsDecode := by
  unfold Obligations.TestVectorWordsDecode
  decide

end Sys2Proof

namespace Sys2Proof.Machine

/-! ## Words that raise a fault, and streams that are refused -/

/-- A row of the opcode table for a one-word request: opcode, mnemonic, mask and match value (30_encoding.md R61, R64-R71). -/
def isOneWordRow (row : Nat × Mnemonic × Word × Word) : Bool :=
  Mnemonic.ofOpcode (BitVec.ofNat 4 row.1) == row.2.1 && row.2.1 != .copy && row.2.2.1 == row.2.1.mask &&
    row.2.2.2 == row.2.1.pattern

theorem decode_of_oneWordRow {row : Nat × Mnemonic × Word × Word} (hrow : isOneWordRow row = true) {w : Word}
    (hop : w.toNat / 2 ^ 28 = row.1) (hset : w &&& row.2.2.1 ≠ row.2.2.2) (rest : List Word) :
    decode (w :: rest) = .command (.reserved row.2.1 w) rest := by
  simp only [isOneWordRow, Bool.and_eq_true, beq_iff_eq, bne_iff_ne] at hrow
  obtain ⟨⟨⟨hofOpcode, hne⟩, hmask⟩, hpattern⟩ := hrow
  rw [hmask, hpattern] at hset
  rw [← opcode_eq_of_div hop] at hofOpcode
  rw [decode_oneWord hofOpcode hne, decodeWord_of_not_reservedClear (mt reservedClear_iff.mp hset)]

/-- A COPY with a reserved bit of word 0 or word 1 set takes its five words and spells no command (log entry 15). -/
theorem decode_reservedCopy {w0 w1 : Word} (hop : w0.toNat / 2 ^ 28 = 6)
    (hset : w0 &&& 0xFFFF0000#32 ≠ 0x60000000#32 ∨ w1 &&& 0xFFFF0000#32 ≠ 0#32) (w2 w3 w4 : Word) (rest : List Word) :
    decode (w0 :: w1 :: w2 :: w3 :: w4 :: rest) = .command (.reserved .copy w0) rest := by
  have hnot : ¬ (reservedClear .copy w0 && copyWordClear w1) = true := by
    rw [Bool.and_eq_true, reservedClear_iff, copyWordClear_iff]
    exact not_and_or.mpr hset
  rw [decode_fiveWords (by rw [opcode_eq_of_div hop]; rfl), decodeCopy, if_neg hnot]

theorem execReserved_of_none {s : State} (hf : s.fault = none) (op : Mnemonic) (w : Word) :
    execReserved op w s = .next (s.raise { code := .reservedFieldNonzero, op := op, word := w }) :=
  State.unlessLatched_of_none hf _

/-- Settles O7: the rows are those of the opcode table, a word of a row that misses its match value spells no command, and running it only latches. -/
theorem reservedBitRaisesReservedFieldNonzero : Obligations.ReservedBitRaisesReservedFieldNonzero := by
  unfold Obligations.ReservedBitRaisesReservedFieldNonzero
  intro s w rest hf
  refine ⟨fun row hrow hop hset => ⟨decode_of_oneWordRow ?_ hop hset rest, execReserved_of_none hf _ w⟩,
    fun w1 w2 w3 w4 hop hset => ⟨decode_reservedCopy hop hset w2 w3 w4 rest, execReserved_of_none hf _ w⟩⟩
  exact List.all_eq_true.mp (by decide : List.all _ isOneWordRow = true) row hrow

theorem exec_illegal_of_none {s : State} (hf : s.fault = none) (w : Word) :
    exec (.illegal w) s = .next (s.raise { code := .illegalCommand, op := .illegal, word := w }) :=
  State.unlessLatched_of_none hf _

/-- Settles O6: an opcode from 0x8 on has bit 31 set, which is all the illegal row asks. -/
theorem illegalOpcodeRaisesIllegalCommand : Obligations.IllegalOpcodeRaisesIllegalCommand := by
  unfold Obligations.IllegalOpcodeRaisesIllegalCommand
  intro s w rest hop
  have hbit : w.getLsbD 31 = true := by
    rw [← BitVec.msb_eq_getLsbD_last, BitVec.msb_eq_decide]
    exact decide_eq_true (by omega)
  exact ⟨decode_illegal rest (reservedClear_illegal_iff.mpr hbit), fun hf => exec_illegal_of_none hf w⟩

/-- A step refuses an incomplete stream from its first command on (log entry 12). -/
theorem step_of_not_whole {s : State} (h : wholeStream s.requests = false) : step s = .refused .truncatedCopy := by
  simp [step, State.fetch, h]

/-- Settles O8: the requests before the truncated COPY are whole, so the stream is not. -/
theorem truncatedCopyStreamIsRefused : Obligations.TruncatedCopyStreamIsRefused := by
  unfold Obligations.TruncatedCopyStreamIsRefused
  intro s is w operands his hw hlen hs
  apply step_of_not_whole
  rw [hs]
  exact wholeStream_append_truncatedCopy (wholeStream_flatMap_encode his) hw hlen

/-! ## Pseudo-instructions -/

theorem fitField_of_lt {width n : Nat} (h : n < 2 ^ width) : fitField width n = some (BitVec.ofNat width n) :=
  if_pos h

theorem fitField_of_le {width n : Nat} (h : 2 ^ width ≤ n) : fitField width n = none :=
  if_neg (Nat.not_lt.mpr h)

theorem extractLsb'_ofNat_low (v : Nat) : (BitVec.ofNat 16 v).extractLsb' 0 8 = BitVec.ofNat 8 (v % 256) :=
  BitVec.eq_of_toNat_eq (by simp)

theorem extractLsb'_ofNat_high {v : Nat} (h : v < 2 ^ 16) :
    (BitVec.ofNat 16 v).extractLsb' 8 8 = BitVec.ofNat 8 (v / 256) :=
  BitVec.eq_of_toNat_eq (by simp [Nat.shiftRight_eq_div_pow]; omega)

/-- Settles O12: every operand fits its field, but for addr + 1 at 0xFFFF. -/
theorem pseudoInstructionExpansions : Obligations.PseudoInstructionExpansions := by
  unfold Obligations.PseudoInstructionExpansions
  refine ⟨fun addr v16 haddr hv => ?_, fun v16 => ?_, fun page blk hpage hblk => ?_,
    fun page rom dummy hpage hrom hdummy => ?_⟩
  · rw [← extractLsb'_ofNat_low, ← extractLsb'_ofNat_high hv, assemble, fitField_of_lt (n := addr) (by omega),
      fitField_of_lt (n := addr + 1) (by omega), fitField_of_lt hv]
    rfl
  · rw [assemble, fitField_of_lt (n := 0xFFFF) (by decide), fitField_of_le (n := 0xFFFF + 1) (by decide)]
    rfl
  · rw [assemble, fitField_of_lt (n := page) hpage, fitField_of_lt hblk]
    rfl
  · rw [assemble, fitField_of_lt (n := page) hpage, fitField_of_lt hrom, fitField_of_lt hdummy]
    rfl

end Sys2Proof.Machine
end

section
/-! The family 40_translation.md: what TRANS, RESOLVE and BIND answer, what BIND and RESET leave as it is, and accesses that find their bytes in either mode. -/

namespace Sys2Proof.Machine

/-! ## TRANS and RESOLVE -/

/-- Page and offset, each in its bits of the response, are the address again (30_encoding.md R63). -/
theorem transResponse_div_mod (a : Addr) : transResponse (a.toNat / 1024) (a.toNat % 1024) = a.setWidth 32 := by
  have hor : (a.toNat / 1024) <<< Config.pageShift ||| a.toNat % 1024 = a.toNat := by
    have hoff : a.toNat % 1024 < 2 ^ Config.pageShift := Nat.mod_lt _ (by decide)
    rw [← Nat.shiftLeft_add_eq_or_of_lt hoff, Nat.shiftLeft_eq]
    exact Nat.div_add_mod' a.toNat 1024
  rw [transResponse, hor, BitVec.ofNat_toNat]

/-- RESOLVE's response for a bound entry is the bit 1 above the block id (30_encoding.md R63). -/
theorem boundResponse_eq_append (b : BlockId) : boundResponse b = 0x0001#16 ++ b := by
  rw [BitVec.append_def]
  rfl

theorem exec_trans_of_none {s : State} (hf : s.fault = none) (a : Addr) :
    exec (.trans a) s = .next (s.respond (a.setWidth 32)) := by
  refine (State.unlessLatched_of_none hf _).trans ?_
  rw [translateAddr, pageOf_widen, offsetOf_widen, transResponse_div_mod]

theorem exec_resolve_of_none {s : State} (hf : s.fault = none) (d : Dir) (p : Page) :
    exec (.resolve d p) s = .next (resolveEntry d p s) :=
  State.unlessLatched_of_none hf _

theorem resolveEntry_absent_debug {s : State} {d : Dir} {p : Page} (h : s.entry d p.toNat = .absent)
    (hm : s.mode = .debug) :
    resolveEntry d p s =
      s.raise
        { code := .unmappedPage, op := .resolve, word := firstWord (.resolve d p), page := some p.toNat,
          dir := some d } := by
  simp only [resolveEntry, h, (State.isDebug_iff s).mpr hm, if_true]

theorem resolveEntry_absent_release {s : State} {d : Dir} {p : Page} (h : s.entry d p.toNat = .absent)
    (hm : s.mode = .release) : resolveEntry d p s = s.respond 0#32 := by
  simp only [resolveEntry, h, (State.not_isDebug_iff s).mpr hm, Bool.false_eq_true, if_false]

/-- Settles O22: the response is the address itself, whose bits 15:10 and 9:0 are page and offset. -/
theorem transAnswersPageAndOffset : Obligations.TransAnswersPageAndOffset := by
  unfold Obligations.TransAnswersPageAndOffset
  intro s a
  have ha := a.isLt
  refine ⟨fun hf => ⟨a.setWidth 32, exec_trans_of_none hf a, ?_, ?_, ?_, rfl⟩,
    fun hf => exec_of_latched _ ((State.latched_iff s).mpr hf)⟩
  · rw [BitVec.toNat_setWidth]
    omega
  · rw [BitVec.extractLsb'_toNat, BitVec.toNat_setWidth, Nat.shiftRight_eq_div_pow]
    omega
  · rw [BitVec.extractLsb'_toNat, BitVec.toNat_setWidth, Nat.shiftRight_zero]
    omega

/-- Settles O23: `resolveEntry` at each of the three entries R81 tells apart. -/
theorem resolveAnswersTheEntry : Obligations.ResolveAnswersTheEntry := by
  unfold Obligations.ResolveAnswersTheEntry
  intro s d p hf
  rw [exec_resolve_of_none hf]
  refine ⟨fun b hb => ?_, fun ha hm => ?_, fun ha hm => ?_⟩
  · rw [resolveEntry_bound (State.entry_of_some hb), boundResponse_eq_append]
    rfl
  · rw [resolveEntry_absent_debug (State.entry_of_some ha) hm]
    rfl
  · rw [resolveEntry_absent_release (State.entry_of_some ha) hm]
    rfl

/-! ## BIND and RESET -/

theorem exec_bind_of_lt {s : State} {b : BlockId} (hf : s.fault = none) (hb : b.toNat < s.blocks.length) (d : Dir)
    (p : Page) : exec (.bind d p b) s = .next (s.setEntry d p (.bound b)) := by
  refine (State.unlessLatched_of_none hf _).trans ?_
  rw [bindEntry, if_pos (State.hasBlock_iff.mpr hb)]

theorem exec_bind_of_le {s : State} {b : BlockId} (hf : s.fault = none) (hb : s.blocks.length ≤ b.toNat) (d : Dir)
    (p : Page) :
    exec (.bind d p b) s =
      .next (s.raise
        { code := .invalidBlock, op := .bind, word := firstWord (.bind d p b), page := some p.toNat, dir := some d,
          block := some b }) := by
  refine (State.unlessLatched_of_none hf _).trans ?_
  rw [bindEntry, if_neg (mt State.hasBlock_iff.mp (Nat.not_lt.mpr hb))]

/-- Settles O24: `bindEntry` on either side of NUM_BLOCKS. -/
theorem bindInstallsTheBlock : Obligations.BindInstallsTheBlock := by
  unfold Obligations.BindInstallsTheBlock
  intro s p b hf
  exact ⟨fun hb => ⟨exec_bind_of_lt hf hb .r p, exec_bind_of_lt hf hb .w p⟩, fun hb d => exec_bind_of_le hf hb d p⟩

/-- Everything BIND can answer: the state as it was behind a latched fault, the entry set, or a fault latched. -/
theorem exec_bind_cases {s t : State} {d : Dir} {p : Page} {b : BlockId} (h : exec (.bind d p b) s = .next t) :
    t = s ∨ t = s.setEntry d p (.bound b) ∨ ∃ r, t = s.raise r := by
  rcases State.unlessLatched_eq_next h with ⟨-, rfl⟩ | ⟨-, h⟩
  · exact .inl rfl
  cases h
  rcases bindEntry_cases d p b s with ⟨-, e⟩ | ⟨-, r, e, -⟩
  · exact .inr (.inl e)
  · exact .inr (.inr ⟨r, e⟩)

/-- BIND leaves every entry but its own (40_translation.md R82). -/
theorem exec_bind_other_entry {s t : State} {d : Dir} {p : Page} {b : BlockId} (h : exec (.bind d p b) s = .next t)
    {q : Nat} (hq : q ≠ p.toNat) : (t.mapOf d)[q]? = (s.mapOf d)[q]? := by
  rcases exec_bind_cases h with rfl | rfl | ⟨r, rfl⟩
  · rfl
  · rw [State.mapOf_setEntry, if_neg fun ⟨_, e⟩ => hq e]
  · cases d <;> rfl

/-- RESET changes the maps, or latches a fault, or does nothing behind one (44_session.md R130). -/
theorem exec_reset_frame {s t : State} (h : exec .reset s = .next t) :
    t = { s with readMap := t.readMap, writeMap := t.writeMap, fault := t.fault } := by
  rcases State.checks_eq_next h with ⟨-, rfl⟩ | rfl | ⟨-, -, h⟩
  · rfl
  · rfl
  · cases h
    rfl

/-- Settles O41: each state BIND or RESET can answer differs in the named fields only. -/
theorem bindAndResetFrame : Obligations.BindAndResetFrame := by
  unfold Obligations.BindAndResetFrame
  refine ⟨fun s t p b h => ⟨?_, fun q hq => exec_bind_other_entry (d := .r) h hq⟩,
    fun s t p b h => ⟨?_, fun q hq => exec_bind_other_entry (d := .w) h hq⟩, fun s t h => exec_reset_frame h⟩
  · rcases exec_bind_cases h with rfl | rfl | ⟨r, rfl⟩ <;> rfl
  · rcases exec_bind_cases h with rfl | rfl | ⟨r, rfl⟩ <;> rfl

section

variable {s : State} {a : Addr} {p : Page} {b : BlockId} (hf : s.fault = none) (hi : s.inTrap = false)
  (hp : a.toNat / 1024 = p.toNat)
include hf hi hp

/-- RB right after BIND R answers the new block's byte (40_translation.md R83). -/
theorem exec_rb_setEntry {v : Byte} (hv : s.readByte b (a.toNat % 1024) = some v) :
    exec (.rb a) (s.setEntry .r p (.bound b)) = .next ((s.setEntry .r p (.bound b)).respond (v.setWidth 32)) := by
  have hbound : ((s.setEntry .r p (.bound b)).mapOf .r)[a.toNat / 1024]? = some (.bound b) := by
    rw [State.mapOf_setEntry, if_pos ⟨rfl, hp⟩]
  exact exec_rb_found (s := s.setEntry .r p (.bound b)) hf hi hbound hv

/-- WB right after BIND W stores in the new block (40_translation.md R83). -/
theorem exec_wb_setEntry {old : Byte} (ha : a.toNat < 0xFFFC) (hold : s.readByte b (a.toNat % 1024) = some old)
    (v : Byte) :
    exec (.wb a v) (s.setEntry .w p (.bound b)) = .next ((s.setEntry .w p (.bound b)).blkSet b (a.toNat % 1024) v) := by
  obtain ⟨n, hn, hlt⟩ := State.readByte_isSome_iff.mp ⟨old, hold⟩
  have hbound : ((s.setEntry .w p (.bound b)).mapOf .w)[a.toNat / 1024]? = some (.bound b) := by
    rw [State.mapOf_setEntry, if_pos ⟨rfl, hp⟩]
  exact exec_wb_found_low (s := s.setEntry .w p (.bound b)) v hf hi ha hbound hn hlt

end

/-- Settles O25: the next access looks the entry up in the map BIND left, and the arena is the one of before. -/
theorem rebindTakesEffectAtOnce : Obligations.RebindTakesEffectAtOnce := by
  unfold Obligations.RebindTakesEffectAtOnce
  intro s t d p b hf hb hexec
  rw [exec_bind_of_lt hf hb] at hexec
  cases hexec
  refine ⟨fun d' q _ => State.mapOf_setEntry s d d' p (.bound b) q,
    State.readByte_congr (State.setEntry_blocks s d p (.bound b)), ?_, ?_⟩
  · rintro rfl hi a v hp hv
    rw [exec_rb_setEntry hf hi hp hv, State.respond_of_not_inTrap (s := s.setEntry .r p (.bound b)) hi]
  · rintro rfl hi a x old hp ha hold
    exact exec_wb_setEntry hf hi hp ha hold x

/-! ## Covered accesses in either mode -/

/-- The latch and the reentrancy check read no MODE, so an access whose body answers alike in both modes does so whole. -/
theorem State.checks_withMode {s t : State} {m : Mode} {op : Mnemonic} {w : Word}
    {body body' : Host.Outcome State Fault Refusal} (h : s.unlessLatched (s.unlessInTrap op w body) = .next t)
    (hbody : s.fault = none → s.inTrap = false → ∃ u, body = .next u ∧ body' = .next { u with mode := m }) :
    ({ s with mode := m } : State).unlessLatched (({ s with mode := m } : State).unlessInTrap op w body') =
      .next { t with mode := m } := by
  rcases State.unlessLatched_eq_next h with ⟨hl, rfl⟩ | ⟨hf, h⟩
  · exact State.unlessLatched_of_latched (s := { t with mode := m }) hl _
  rw [State.unlessLatched_of_none (s := { s with mode := m }) hf]
  rcases State.unlessInTrap_eq_next h with ⟨hi, rfl⟩ | ⟨hi, h⟩
  · exact State.unlessInTrap_of_true (s := { s with mode := m }) hi op w body'
  · rw [State.unlessInTrap_of_false (s := { s with mode := m }) hi]
    obtain ⟨u, e, e'⟩ := hbody hf hi
    rw [e] at h
    cases h
    exact e'

/-- A covered RB finds its byte (40_translation.md R86). -/
theorem State.accessCovered_rb {s : State} {a : Addr} (h : s.accessCovered (.rb a) = true) :
    ∃ b v, s.readMap[a.toNat / 1024]? = some (.bound b) ∧ s.readByte b (a.toNat % 1024) = some v := by
  rw [State.accessCovered, pageOf_widen, offsetOf_widen] at h
  obtain ⟨b, n, hb, hn, hle⟩ := State.covers_eq_true.mp h
  exact ⟨b, _, hb, State.readByte_blkGet hn hle⟩

/-- A covered WB finds the place of its byte (40_translation.md R86). -/
theorem State.accessCovered_wb {s : State} {a : Addr} {v : Byte} (h : s.accessCovered (.wb a v) = true) :
    ∃ b n, s.writeMap[a.toNat / 1024]? = some (.bound b) ∧ s.lenOf b = some n ∧ a.toNat % 1024 < n := by
  rw [State.accessCovered, pageOf_widen, offsetOf_widen] at h
  exact State.covers_eq_true.mp h

/-- A covered RW finds both its bytes, at `a` and at `a + 1`, on either path (40_translation.md R86, 41_access.md R94, R95). -/
theorem State.accessCovered_rw {s : State} {a : Addr} (h : s.accessCovered (.rw a) = true) :
    ∃ b1 b2 low high, s.readMap[a.toNat / 1024]? = some (.bound b1) ∧ s.readByte b1 (a.toNat % 1024) = some low ∧
      s.readMap[(a.toNat + 1) / 1024]? = some (.bound b2) ∧ s.readByte b2 ((a.toNat + 1) % 1024) = some high := by
  rw [State.accessCovered, pageOf_widen, offsetOf_widen, pageOf_highByteAddr, offsetOf_highByteAddr] at h
  split at h
  next hfast =>
    have hlt : a.toNat % 1024 < 1023 := hfast
    have hpage : (a.toNat + 1) / 1024 = a.toNat / 1024 := by omega
    have hoff : (a.toNat + 1) % 1024 = a.toNat % 1024 + 1 := by omega
    obtain ⟨b, n, hb, hn, hle⟩ := State.covers_eq_true.mp h
    rw [hpage, hoff]
    exact ⟨b, b, _, _, hb, State.readByte_blkGet hn (by omega), hb, State.readByte_blkGet hn (by omega)⟩
  next =>
    obtain ⟨hlow, hhigh⟩ := (Bool.and_eq_true _ _).mp h
    obtain ⟨b1, n1, hb1, hn1, hle1⟩ := State.covers_eq_true.mp hlow
    obtain ⟨b2, n2, hb2, hn2, hle2⟩ := State.covers_eq_true.mp hhigh
    exact ⟨b1, b2, _, _, hb1, State.readByte_blkGet hn1 hle1, hb2, State.readByte_blkGet hn2 hle2⟩

section

variable {s t : State} {a : Addr} (m : Mode)

theorem exec_rb_withMode (hc : s.accessCovered (.rb a) = true) (h : exec (.rb a) s = .next t) :
    exec (.rb a) { s with mode := m } = .next { t with mode := m } := by
  obtain ⟨b, v, hb, hv⟩ := State.accessCovered_rb hc
  exact State.checks_withMode h fun hf hi =>
    ⟨_, (exec_rb_body hf hi a).symm.trans (exec_rb_found hf hi hb hv),
      (exec_rb_body (s := { s with mode := m }) hf hi a).symm.trans (exec_rb_found hf hi hb hv)⟩

theorem exec_wb_withMode {v : Byte} (ha : a.toNat < 0xFFFC) (hc : s.accessCovered (.wb a v) = true)
    (h : exec (.wb a v) s = .next t) : exec (.wb a v) { s with mode := m } = .next { t with mode := m } := by
  obtain ⟨b, n, hb, hn, hlt⟩ := State.accessCovered_wb hc
  exact State.checks_withMode h fun hf hi =>
    ⟨_, (exec_wb_body hf hi a v).symm.trans (exec_wb_found_low v hf hi ha hb hn hlt),
      (exec_wb_body (s := { s with mode := m }) hf hi a v).symm.trans (exec_wb_found_low v hf hi ha hb hn hlt)⟩

theorem exec_rw_withMode (hc : s.accessCovered (.rw a) = true) (h : exec (.rw a) s = .next t) :
    exec (.rw a) { s with mode := m } = .next { t with mode := m } := by
  obtain ⟨b1, b2, low, high, hb1, hlow, hb2, hhigh⟩ := State.accessCovered_rw hc
  exact State.checks_withMode h fun hf hi =>
    ⟨_, (exec_rw_body hf hi a).symm.trans (exec_rw_found hf hi hb1 hlow hb2 hhigh),
      (exec_rw_body (s := { s with mode := m }) hf hi a).symm.trans (exec_rw_found hf hi hb1 hlow hb2 hhigh)⟩

end

/-- Settles O37: a covered access answers what it finds, and neither the maps nor the arena hold MODE. -/
theorem coveredAccessIgnoresTheMode : Obligations.CoveredAccessIgnoresTheMode := by
  unfold Obligations.CoveredAccessIgnoresTheMode
  rintro s t i m (⟨a, rfl⟩ | ⟨a, rfl⟩ | ⟨a, v, rfl, ha⟩) hc hexec
  · exact exec_rb_withMode m hc hexec
  · exact exec_rw_withMode m hc hexec
  · exact exec_wb_withMode m ha hc hexec

end Sys2Proof.Machine
end

section
/-! The family 41_access.md: what RB, WB and RW answer where their bytes are found and where a check fails, the agreement of RW with two RBs, the round trips, and the frame of WB. -/

namespace Sys2Proof.Machine

/-! ## Failed checks and free values -/

theorem State.check_failed_debug {s : State} (hm : s.mode = .debug) (c c' : Checked) :
    (if s.isDebug then c else c') = c :=
  if_pos ((State.isDebug_iff s).mpr hm)

theorem State.check_failed_release {s : State} (hm : s.mode = .release) (c c' : Checked) :
    (if s.isDebug then c else c') = c' :=
  if_neg (Bool.eq_false_iff.mp ((State.not_isDebug_iff s).mpr hm))

theorem State.respondFreeByte_of_not_inTrap {s : State} (hi : s.inTrap = false) :
    s.respondFreeByte =
      { s with responses := s.responses ++ [{ recipient := .issuer, word := (Config.freeByte s.draws).setWidth 32 }],
               draws := s.draws + 1 } := by
  rw [State.respondFreeByte, State.respond_of_not_inTrap hi]

theorem State.respondFreeHalf_of_not_inTrap {s : State} (hi : s.inTrap = false) :
    s.respondFreeHalf =
      { s with responses := s.responses ++ [{ recipient := .issuer, word := (Config.freeHalf s.draws).setWidth 32 }],
               draws := s.draws + 1 } := by
  rw [State.respondFreeHalf, State.respond_of_not_inTrap hi]

/-! ## RB -/

/-- RB where its check fails: the fault in Debug mode, a free byte in Release mode (41_access.md R90). -/
theorem exec_rb_failed {s : State} {a : Addr} {r : FaultRecord} (hf : s.fault = none) (hi : s.inTrap = false)
    (h : s.check .rb (firstWord (.rb a)) a .r (a.toNat / 1024) (a.toNat % 1024) 1 =
      if s.isDebug then .raised r else .bad) :
    (s.mode = .debug → exec (.rb a) s = .next (s.raise r)) ∧
    (s.mode = .release → ∃ x : Byte,
      exec (.rb a) s =
        .next { s with responses := s.responses ++ [{ recipient := .issuer, word := x.setWidth 32 }],
                       draws := s.draws + 1 }) := by
  rw [exec_rb_body hf hi, readByteAt]
  simp only [pageOf_widen, offsetOf_widen, h]
  refine ⟨fun hm => ?_, fun hm => ⟨Config.freeByte s.draws, ?_⟩⟩
  · rw [State.check_failed_debug hm]
  · rw [State.check_failed_release hm, State.respondFreeByte_of_not_inTrap hi]

/-- Settles O26: RB's byte is found, or its check fails on a short block or on an Absent entry. -/
theorem rbAnswersTheBoundByte : Obligations.RbAnswersTheBoundByte := by
  unfold Obligations.RbAnswersTheBoundByte
  intro s a hf
  refine ⟨fun hi => exec_rb_inTrap hf hi a, fun hi b hb => ⟨fun v hv => ?_, fun n hn hle => ?_⟩, fun hi ha => ?_⟩
  · rw [exec_rb_found hf hi hb hv, State.respond_of_not_inTrap hi]
  · exact exec_rb_failed hf hi (State.check_short (d := .r) hb hn (Nat.lt_succ_of_le hle) _ _ _)
  · exact exec_rb_failed hf hi (State.check_absent (State.entry_of_some ha) _ _ _ _ _)

/-! ## A store and the other bytes -/

/-- The store is read back at its own place (20_memory.md R42). -/
theorem State.readByte_blkSet_self {s : State} (hs : s.wf = true) {b : BlockId} {i n : Nat} (hn : s.lenOf b = some n)
    (hi : i < n) (v : Byte) : (s.blkSet b i v).readByte b i = some v := by
  obtain ⟨harena, -⟩ := State.wf_iff.mp hs
  rw [State.readByte_blkSet harena hn hi, if_pos ⟨rfl, rfl⟩]

/-- Every other byte of every block is as before (10_state.md R26). -/
theorem State.readByte_blkSet_other {s : State} (hs : s.wf = true) {b b' : BlockId} {i j n : Nat}
    (hn : s.lenOf b = some n) (hi : i < n) (hother : ¬ (b' = b ∧ j = i)) (v : Byte) :
    (s.blkSet b i v).readByte b' j = s.readByte b' j := by
  obtain ⟨harena, -⟩ := State.wf_iff.mp hs
  rw [State.readByte_blkSet harena hn hi, if_neg hother]

/-! ## WB -/

/-- After a store, or after one that failed in Release mode: the notification from 0xFFFC on, nothing below (41_access.md R92). -/
theorem afterStore_low_or_high {s : State} (hf : s.fault = none) (a : Addr) (v : Byte) :
    (a.toNat < 0xFFFC → afterStore a v s = .next s) ∧
    (0xFFFC ≤ a.toNat → afterStore a v s = exec (.notify (BitVec.ofNat 2 (a.toNat - 0xFFFC)) v) s) :=
  ⟨fun ha => afterStore_low ha v s, fun ha => afterStore_high hf ha v⟩

/-- WB where its check fails: the fault in Debug mode; in Release mode no store, and what follows a store (41_access.md R92). -/
theorem exec_wb_failed {s : State} {a : Addr} {v : Byte} {r : FaultRecord} (hf : s.fault = none) (hi : s.inTrap = false)
    (h : s.check .wb (firstWord (.wb a v)) a .w (a.toNat / 1024) (a.toNat % 1024) 1 =
      if s.isDebug then .raised r else .bad) :
    (s.mode = .debug → exec (.wb a v) s = .next (s.raise r)) ∧
    (s.mode = .release →
      (a.toNat < 0xFFFC → exec (.wb a v) s = .next s) ∧
      (0xFFFC ≤ a.toNat → exec (.wb a v) s = exec (.notify (BitVec.ofNat 2 (a.toNat - 0xFFFC)) v) s)) := by
  rw [exec_wb_body hf hi, writeByteAt]
  simp only [pageOf_widen, offsetOf_widen, h]
  refine ⟨fun hm => ?_, fun hm => ?_⟩
  · rw [State.check_failed_debug hm]
  · rw [State.check_failed_release hm]
    exact afterStore_low_or_high hf a v

/-- Settles O27: WB's place is found, or its check fails on a short block or on an Absent entry. -/
theorem wbStoresThenNotifies : Obligations.WbStoresThenNotifies := by
  unfold Obligations.WbStoresThenNotifies
  intro s a v hf
  refine ⟨fun hi => exec_wb_inTrap hf hi a v, fun hi b n hb hn => ⟨fun hlt => ?_, fun hle => ?_⟩, fun hi ha => ?_⟩
  · rw [exec_wb_found v hf hi hb hn hlt]
    exact afterStore_low_or_high (s := s.blkSet b (a.toNat % 1024) v) hf a v
  · exact exec_wb_failed hf hi (State.check_short (d := .w) hb hn (Nat.lt_succ_of_le hle) _ _ _)
  · exact exec_wb_failed hf hi (State.check_absent (State.entry_of_some ha) _ _ _ _ _)

/-- Everything WB below the paging registers can answer: the state as it was, a fault latched, or the store. -/
theorem exec_wb_low_cases {s t : State} {a : Addr} {v : Byte} (ha : a.toNat < 0xFFFC)
    (h : exec (.wb a v) s = .next t) :
    t = s ∨ (∃ r, t = s.raise r) ∨
      ∃ b n, s.writeMap[a.toNat / 1024]? = some (.bound b) ∧ s.lenOf b = some n ∧ a.toNat % 1024 < n ∧
        t = s.blkSet b (a.toNat % 1024) v := by
  rcases State.checks_eq_next h with ⟨-, rfl⟩ | rfl | ⟨-, -, h⟩
  · exact .inl rfl
  · exact .inr (.inl ⟨_, rfl⟩)
  rcases writeByteAt_cases a v s with ⟨b, n, hb, hn, hlt, e⟩ | ⟨-, e, -⟩ | ⟨r, -, e, -⟩ | ⟨b, -, -, e⟩ <;>
    rw [e] at h
  · rw [afterStore_low ha] at h
    cases h
    exact .inr (.inr ⟨b, n, hb, hn, hlt, rfl⟩)
  · rw [afterStore_low ha] at h
    cases h
    exact .inl rfl
  · cases h
    exact .inr (.inl ⟨r, rfl⟩)
  · cases h

/-- Settles O42: of the states WB can answer only the store has another arena, and it is new in one byte. -/
theorem wbFrame : Obligations.WbFrame := by
  unfold Obligations.WbFrame
  intro s t a v hs ha hexec
  rcases exec_wb_low_cases ha hexec with rfl | ⟨r, rfl⟩ | ⟨b, n, hb, hn, hlt, rfl⟩
  · exact ⟨rfl, fun _ => rfl, fun _ _ _ => rfl⟩
  · exact ⟨rfl, fun _ => rfl, fun _ _ _ => rfl⟩
  · refine ⟨rfl, fun b' => State.lenOf_blkSet s b b' _ v, fun b' j hother => ?_⟩
    refine State.readByte_blkSet_other hs hn hlt (fun ⟨hb', hj⟩ => hother ⟨?_, hj⟩) v
    rw [hb', hb]

/-! ## RW -/

/-- The high byte of a word lies above its low byte (20_memory.md R40). -/
theorem littleEndian_eq_append (low high : Byte) : littleEndian low high = high ++ low := by
  rw [littleEndian, BitVec.append_def, BitVec.shiftLeftZeroExtend_eq, BitVec.setWidth'_eq, BitVec.or_comm]

theorem setWidth_littleEndian_eq_append (low high : Byte) :
    (littleEndian low high).setWidth 32 = 0#16 ++ high ++ low := by
  rw [littleEndian_eq_append, BitVec.setWidth_append, dif_neg (by decide), BitVec.setWidth_eq_append (by decide)]
  rfl

theorem setWidth_littleEndian_eq_or (low high : Byte) :
    (littleEndian low high).setWidth 32 = low.setWidth 32 ||| high.setWidth 32 <<< 8 := by
  have hzero : 0#16 ++ high = high.setWidth 24 := (BitVec.setWidth_eq_append (by decide)).symm
  rw [setWidth_littleEndian_eq_append, BitVec.append_def, BitVec.shiftLeftZeroExtend_eq, BitVec.setWidth'_eq, hzero,
    BitVec.setWidth_setWidth (by decide), BitVec.or_comm]

/-- RW where both its bytes are found, outside an answer: high byte above low byte (41_access.md R95). -/
theorem exec_rw_found_append {s : State} {a : Addr} {b1 b2 : BlockId} {low high : Byte} (hf : s.fault = none)
    (hi : s.inTrap = false) (hb1 : s.readMap[a.toNat / 1024]? = some (.bound b1))
    (hlow : s.readByte b1 (a.toNat % 1024) = some low)
    (hb2 : s.readMap[(a.toNat + 1) / 1024]? = some (.bound b2))
    (hhigh : s.readByte b2 ((a.toNat + 1) % 1024) = some high) :
    exec (.rw a) s =
      .next { s with responses := s.responses ++ [{ recipient := .issuer, word := 0#16 ++ high ++ low }] } := by
  rw [exec_rw_found hf hi hb1 hlow hb2 hhigh, setWidth_littleEndian_eq_append, State.respond_of_not_inTrap hi]

/-- RW's fast path where its check fails: the fault in Debug mode, a free half word in Release mode (41_access.md R95, R97). -/
theorem exec_rw_fast_failed {s : State} {a : Addr} {r : FaultRecord} (hf : s.fault = none) (hi : s.inTrap = false)
    (hfast : a.toNat % 1024 < 1023)
    (h : s.check .rw (firstWord (.rw a)) a .r (a.toNat / 1024) (a.toNat % 1024) 2 =
      if s.isDebug then .raised r else .bad) :
    (s.mode = .debug → exec (.rw a) s = .next (s.raise r)) ∧
    (s.mode = .release → ∃ x : Half,
      exec (.rw a) s =
        .next { s with responses := s.responses ++ [{ recipient := .issuer, word := x.setWidth 32 }],
                       draws := s.draws + 1 }) := by
  rw [exec_rw_body hf hi, readWordAt_fast hfast, readWordFast]
  simp only [pageOf_widen, offsetOf_widen, h]
  refine ⟨fun hm => ?_, fun hm => ⟨Config.freeHalf s.draws, ?_⟩⟩
  · rw [State.check_failed_debug hm]
  · rw [State.check_failed_release hm, State.respondFreeHalf_of_not_inTrap hi]

/-- Settles O29: on the fast path the byte after `a` lies in the same page. -/
theorem rwFastPath : Obligations.RwFastPath := by
  unfold Obligations.RwFastPath
  intro s a hf hi hfast
  have hpage : (a.toNat + 1) / 1024 = a.toNat / 1024 := by omega
  have hoff : (a.toNat + 1) % 1024 = a.toNat % 1024 + 1 := by omega
  refine ⟨fun b hb => ⟨fun low high hlow hhigh => ?_, fun n hn hlt => ?_⟩, fun ha => ?_⟩
  · exact exec_rw_found_append hf hi hb hlow (hpage.symm ▸ hb) (hoff.symm ▸ hhigh)
  · exact exec_rw_fast_failed hf hi hfast (State.check_short (d := .r) hb hn hlt _ _ _)
  · exact exec_rw_fast_failed hf hi hfast (State.check_absent (State.entry_of_some ha) _ _ _ _ _)

section

variable {s : State} {a : Addr} {r : FaultRecord} (hf : s.fault = none) (hi : s.inTrap = false)
  (hsplit : a.toNat % 1024 = 1023)
include hf hi hsplit

/-- RW's split path where the low byte's check raises: the high byte's does not matter (41_access.md R95). -/
theorem exec_rw_split_low_failed (hm : s.mode = .debug)
    (hlow : s.check .rw (firstWord (.rw a)) a .r (a.toNat / 1024) 1023 1 = if s.isDebug then .raised r else .bad) :
    exec (.rw a) s = .next (s.raise r) := by
  rw [exec_rw_body hf hi, readWordAt_split hsplit, readWordSplit]
  simp only [pageOf_widen, offsetOf_widen, hsplit, hlow, State.check_failed_debug hm]

/-- RW's split path where the low byte is found and the high byte's check fails: the fault in Debug mode, a free half word in Release mode (41_access.md R95, R97). -/
theorem exec_rw_split_high_failed {b : BlockId} {low : Byte} (hb : s.readMap[a.toNat / 1024]? = some (.bound b))
    (hlow : s.readByte b 1023 = some low)
    (hhigh : s.check .rw (firstWord (.rw a)) a .r (a.toNat / 1024 + 1) 0 1 = if s.isDebug then .raised r else .bad) :
    (s.mode = .debug → exec (.rw a) s = .next (s.raise r)) ∧
    (s.mode = .release → ∃ x : Half,
      exec (.rw a) s =
        .next { s with responses := s.responses ++ [{ recipient := .issuer, word := x.setWidth 32 }],
                       draws := s.draws + 1 }) := by
  obtain ⟨n, hn, hlt⟩ := State.readByte_isSome_iff.mp ⟨low, hlow⟩
  obtain ⟨hpage, hoff⟩ := split_highByte hsplit
  have hok := State.check_ok (d := .r) (off := 1023) (need := 1) hb hn hlt .rw (firstWord (.rw a)) a
  rw [exec_rw_body hf hi, readWordAt_split hsplit, readWordSplit]
  simp only [pageOf_widen, offsetOf_widen, hsplit, hpage, hoff, hhigh, hok]
  refine ⟨fun hm => ?_, fun hm => ⟨Config.freeHalf s.draws, ?_⟩⟩
  · rw [State.check_failed_debug hm]
  · rw [State.check_failed_release hm, State.respondFreeHalf_of_not_inTrap hi]

end

/-- Settles O30: the byte after offset 1023 lies at offset 0 of the next page, and the low byte's check comes first. -/
theorem rwSplitPath : Obligations.RwSplitPath := by
  unfold Obligations.RwSplitPath
  intro s a hf hi hsplit
  have hpage : (a.toNat + 1) / 1024 = a.toNat / 1024 + 1 := by omega
  have hoff : (a.toNat + 1) % 1024 = 0 := by omega
  refine ⟨fun b1 low hb1 hlow => ⟨fun b2 hb2 => ⟨fun high hhigh => ?_, fun hn => ?_⟩, fun ha => ?_⟩,
    fun b1 n hb1 hn hle hm => ?_, fun ha hm => ?_⟩
  · exact exec_rw_found_append hf hi hb1 (hsplit.symm ▸ hlow) (hpage.symm ▸ hb2) (hoff.symm ▸ hhigh)
  · exact (exec_rw_split_high_failed hf hi hsplit hb1 hlow
      (State.check_short (d := .r) hb2 hn Nat.one_pos _ _ _)).1
  · have habsent : s.entry .r (a.toNat / 1024 + 1) = .absent :=
      ha.elim (State.entry_of_none (d := .r)) (State.entry_of_some (d := .r))
    exact (exec_rw_split_high_failed hf hi hsplit hb1 hlow (State.check_absent habsent _ _ _ _ _)).1
  · exact exec_rw_split_low_failed hf hi hsplit hm (State.check_short (d := .r) hb1 hn (Nat.lt_succ_of_le hle) _ _ _)
  · exact exec_rw_split_low_failed hf hi hsplit hm (State.check_absent (State.entry_of_some ha) _ _ _ _ _)

/-- Page 64 has no entry (41_access.md R93). -/
theorem State.entry_page64 (s : State) (d : Dir) : s.entry d 64 = .absent :=
  State.entry_of_none (by simp)

/-- Settles O31: the high byte of the word at 0xFFFF is looked up in page 64. -/
theorem rwAtTopOfAddressSpace : Obligations.RwAtTopOfAddressSpace := by
  unfold Obligations.RwAtTopOfAddressSpace
  intro s b low hf hi hb hlow
  exact exec_rw_split_high_failed (a := 0xFFFF#16) hf hi (by decide) hb hlow
    (State.check_absent (s.entry_page64 .r) _ _ _ _ _)

/-- RW finds both its bytes only where it is covered (40_translation.md R86). -/
theorem State.accessCovered_rw_of_found {s : State} {a : Addr} {b1 b2 : BlockId} {low high : Byte}
    (hb1 : s.readMap[a.toNat / 1024]? = some (.bound b1)) (hlow : s.readByte b1 (a.toNat % 1024) = some low)
    (hb2 : s.readMap[(a.toNat + 1) / 1024]? = some (.bound b2))
    (hhigh : s.readByte b2 ((a.toNat + 1) % 1024) = some high) : s.accessCovered (.rw a) = true := by
  obtain ⟨n1, hn1, hlt1⟩ := State.readByte_isSome_iff.mp ⟨low, hlow⟩
  obtain ⟨n2, hn2, hlt2⟩ := State.readByte_isSome_iff.mp ⟨high, hhigh⟩
  rw [State.accessCovered, pageOf_widen, offsetOf_widen, pageOf_highByteAddr, offsetOf_highByteAddr]
  split
  next hfast =>
    have hlt : a.toNat % 1024 < 1023 := hfast
    have hpage : (a.toNat + 1) / 1024 = a.toNat / 1024 := by omega
    have hle : a.toNat % 1024 + 2 ≤ n2 := by omega
    exact State.covers_eq_true.mpr ⟨b2, n2, hpage ▸ hb2, hn2, hle⟩
  next =>
    rw [Bool.and_eq_true]
    exact ⟨State.covers_eq_true.mpr ⟨b1, n1, hb1, hn1, hlt1⟩, State.covers_eq_true.mpr ⟨b2, n2, hb2, hn2, hlt2⟩⟩

/-- Settles O32: of all RW can do, only the free half word is left for an uncovered RW in Release mode. -/
theorem rwReleaseDrawsTheWholeWord : Obligations.RwReleaseDrawsTheWholeWord := by
  unfold Obligations.RwReleaseDrawsTheWholeWord
  intro s a hs hf hm hc
  have hi := State.wf_inTrap hs hf
  rw [exec_rw_body hf hi]
  rcases readWordAt_cases a s with ⟨b1, b2, low, high, hb1, hlow, hb2, hhigh, -⟩ | ⟨-, e⟩ | ⟨r, hm', -⟩ | ⟨p, b, hb, hl, -⟩
  · exact absurd (State.accessCovered_rw_of_found hb1 hlow hb2 hhigh) (by simp [hc])
  · exact ⟨Config.freeHalf s.draws, by rw [e, State.respondFreeHalf_of_not_inTrap hi]⟩
  · exact absurd (hm.symm.trans hm') (by decide)
  · exact absurd hl (State.lenOf_ne_none hs (d := .r) hb)

/-! ## Agreement and round trips -/

theorem toNat_add_one_of_lt {a : Addr} (h : a.toNat < 0xFFFF) : (a + 1#16).toNat = a.toNat + 1 := by
  rw [BitVec.toNat_add]
  exact Nat.mod_eq_of_lt (Nat.succ_lt_succ h)

/-- Settles O33: the bytes RW found are those RB finds at `a` and at `a + 1`. -/
theorem rwAgreesWithTwoRb : Obligations.RwAgreesWithTwoRb := by
  unfold Obligations.RwAgreesWithTwoRb
  intro s t a hm hf hi ha hexec ht
  have hnext := toNat_add_one_of_lt ha
  rw [exec_rw_body hf hi] at hexec
  rcases readWordAt_cases a s with ⟨b1, b2, low, high, hb1, hlow, hb2, hhigh, e⟩ | ⟨hm', -⟩ | ⟨r, -, e, -⟩ | ⟨p, b, -, -, e⟩
  · rw [e] at hexec
    cases hexec
    refine ⟨low.setWidth 32, high.setWidth 32, ?_, ?_, ?_⟩
    · rw [exec_rb_found hf hi hb1 hlow, State.respond_of_not_inTrap hi]
    · rw [exec_rb_found hf hi (hnext.symm ▸ hb2) (hnext.symm ▸ hhigh), State.respond_of_not_inTrap hi]
    · rw [State.respond_of_not_inTrap hi, setWidth_littleEndian_eq_or]
  · exact absurd (hm.symm.trans hm') (by decide)
  · rw [e] at hexec
    cases hexec
    cases ht
  · rw [e] at hexec
    cases hexec

/-- A command from a well-formed state that completes without a fault leaves no answer running (60_exceptions.md R149). -/
theorem exec_inTrap_eq_false {s t : State} {i : Instr} (hs : s.wf = true) (h : exec i s = .next t)
    (ht : t.fault = none) : t.inTrap = false := by
  obtain ⟨u, e, hu⟩ := exec_answersWf hs i
  rw [e] at h
  cases h
  exact State.wf_inTrap hu ht

/-- Settles O34: RB finds the byte stored, in the state the store left and, past a notification, by the two premises. -/
theorem writeThenReadRoundTrip : Obligations.WriteThenReadRoundTrip := by
  unfold Obligations.WriteThenReadRoundTrip
  intro s a v b n hs hf hr hw hn hlt
  have hi := State.wf_inTrap hs hf
  have hself := State.readByte_blkSet_self hs hn hlt v
  refine ⟨fun ha => ⟨_, exec_wb_found_low v hf hi ha hw hn hlt, ?_⟩, fun _ t hexec ht hmap hbyte => ?_⟩
  · rw [exec_rb_found (s := s.blkSet b (a.toNat % 1024) v) hf hi hr hself,
      State.respond_of_not_inTrap (s := s.blkSet b (a.toNat % 1024) v) hi]
  · have hti := exec_inTrap_eq_false hs hexec ht
    rw [exec_rb_found ht hti (hmap.trans hr) (hbyte.trans hself), State.respond_of_not_inTrap hti]

/-- Two stores at neighbouring places of one block leave both bytes (20_memory.md R42). -/
theorem State.readByte_blkSet_blkSet {s : State} (hs : s.wf = true) {b : BlockId} {i n : Nat} (hn : s.lenOf b = some n)
    (hlt : i + 1 < n) (low high : Byte) :
    ((s.blkSet b i low).blkSet b (i + 1) high).readByte b i = some low ∧
    ((s.blkSet b i low).blkSet b (i + 1) high).readByte b (i + 1) = some high := by
  have hi : i < n := Nat.lt_of_succ_lt hlt
  have hs' : (s.blkSet b i low).wf = true := State.wf_blkSet hs hn hi low
  have hn' : (s.blkSet b i low).lenOf b = some n := (State.lenOf_blkSet s b b i low).trans hn
  refine ⟨?_, State.readByte_blkSet_self hs' hn' hlt high⟩
  rw [State.readByte_blkSet_other hs' hn' hlt (by omega) high, State.readByte_blkSet_self hs hn hi low]

/-- Settles O35: each write is its store, and RW finds the bytes of both. -/
theorem twoWritesThenWordReadRoundTrip : Obligations.TwoWritesThenWordReadRoundTrip := by
  unfold Obligations.TwoWritesThenWordReadRoundTrip
  intro s a low high b n hs hf hr hw hn hoff hlt ha
  have hi := State.wf_inTrap hs hf
  have hnext := toNat_add_one_of_lt (a := a) (by omega)
  have hpage : (a.toNat + 1) / 1024 = a.toNat / 1024 := by omega
  have hoff' : (a.toNat + 1) % 1024 = a.toNat % 1024 + 1 := by omega
  obtain ⟨hlow, hhigh⟩ := State.readByte_blkSet_blkSet hs hn hlt low high
  have hsecond := exec_wb_found_low (s := s.blkSet b (a.toNat % 1024) low) (a := a + 1#16) (b := b) (n := n) high hf hi
  rw [hnext, hpage, hoff'] at hsecond
  refine ⟨_, _, exec_wb_found_low low hf hi (by omega) hw hn (by omega),
    hsecond ha hw ((State.lenOf_blkSet s b b _ low).trans hn) hlt, ?_⟩
  exact exec_rw_found_append (s := (s.blkSet b _ low).blkSet b _ high) hf hi hr hlow (hpage.symm ▸ hr)
    (hoff'.symm ▸ hhigh)

end Sys2Proof.Machine
end

section
/-! The family 42_trap.md: what a notification changes and keeps, the member of MAPPER's set it runs, the commands of the answer and the fault that stops them, the reentrancy check, and which WB notifies. -/

namespace Sys2Proof.Machine

/-! ## The commands of an answer -/

theorem runAnswer_of_latched {s : State} (h : s.latched = true) (cs : List Command) : runAnswer cs s = s := by
  cases cs with
  | nil => rfl
  | cons c rest => rw [runAnswer, if_pos h]

theorem runAnswer_cons_of_none {s : State} (hf : s.fault = none) (c : Command) (rest : List Command) :
    runAnswer (c :: rest) s = runAnswer rest (runNested c s) := by
  rw [runAnswer, (State.not_latched_iff s).mpr hf]
  rfl

/-- The last command of an answer is run exactly if those before it latched no fault (42_trap.md R112). -/
theorem runAnswer_concat (cs : List Command) (c : Command) (s : State) :
    runAnswer (cs ++ [c]) s =
      if (runAnswer cs s).fault = none then runNested c (runAnswer cs s) else runAnswer cs s := by
  rcases s.latched_or_none with hl | hf
  · rw [runAnswer_of_latched hl, runAnswer_of_latched hl, if_neg ((State.latched_iff s).mp hl)]
  induction cs generalizing s with
  | nil => exact (runAnswer_cons_of_none hf c []).trans (if_pos hf).symm
  | cons d rest ih =>
    rw [List.cons_append, runAnswer_cons_of_none hf, runAnswer_cons_of_none hf]
    rcases (runNested d s).latched_or_none with hl | hf'
    · rw [runAnswer_of_latched hl, runAnswer_of_latched hl, if_neg ((State.latched_iff _).mp hl)]
    · exact ih _ hf'

/-- Only BIND changes a map from inside an answer (42_trap.md R116). -/
theorem runNested_maps {c : Command} (hc : ∀ d p b, c ≠ .instr (.bind d p b)) (s : State) :
    (runNested c s).readMap = s.readMap ∧ (runNested c s).writeMap = s.writeMap := by
  cases c with
  | reserved op w => exact ⟨rfl, rfl⟩
  | instr i =>
    cases i with
    | bind d p b => exact absurd rfl (hc d p b)
    | resolve d p =>
      show (resolveEntry d p s).readMap = _ ∧ (resolveEntry d p s).writeMap = _
      rcases resolveEntry_cases d p s with ⟨b, -, e⟩ | ⟨-, -, e⟩ | ⟨-, -, r, e, -⟩ <;> rw [e] <;> exact ⟨rfl, rfl⟩
    | copy sb sp db dp n =>
      obtain ⟨e, -⟩ := copyRange_fixed ⟨sb, sp, db, dp, n⟩ s
      exact ⟨(congrArg State.readMap e :), (congrArg State.writeMap e :)⟩
    | trans a => exact ⟨rfl, rfl⟩
    | rb a => exact ⟨rfl, rfl⟩
    | wb a v => exact ⟨rfl, rfl⟩
    | rw a => exact ⟨rfl, rfl⟩
    | reset => exact ⟨rfl, rfl⟩
    | illegal w => exact ⟨rfl, rfl⟩
    | notify k v => exact ⟨rfl, rfl⟩

/-- An answer without a BIND keeps both maps (42_trap.md R116). -/
theorem runAnswer_maps {cs : List Command} (hcs : ∀ d p b, Command.instr (.bind d p b) ∉ cs) (s : State) :
    (runAnswer cs s).readMap = s.readMap ∧ (runAnswer cs s).writeMap = s.writeMap :=
  runAnswer_keeps (P := fun t => t.readMap = s.readMap ∧ t.writeMap = s.writeMap)
    (fun _ hc t ⟨hr, hw⟩ =>
      have ⟨hr', hw'⟩ := runNested_maps (fun d p b e => hcs d p b (e ▸ hc)) t
      ⟨hr'.trans hr, hw'.trans hw⟩)
    ⟨rfl, rfl⟩

/-- An answer without a COPY keeps every byte (42_trap.md R116). -/
theorem runAnswer_blocks {cs : List Command} (hcs : ∀ sb sp db dp n, Command.instr (.copy sb sp db dp n) ∉ cs)
    (s : State) : (runAnswer cs s).blocks = s.blocks :=
  runAnswer_keeps (P := fun t => t.blocks = s.blocks)
    (fun _ hc t ht => (runNested_blocks (fun sb sp db dp n e => hcs sb sp db dp n (e ▸ hc)) t).trans ht) rfl

/-! ## The notification -/

theorem State.leaveTrap_of_none {s : State} (hf : s.fault = none) : s.leaveTrap = { s with inTrap := false } := by
  rw [State.leaveTrap, (State.not_latched_iff s).mpr hf]
  rfl

/-- Return, by the latch: inTrap is cleared unless a fault is latched (60_exceptions.md R149). -/
theorem State.leaveTrap_eq_ite (s : State) :
    s.leaveTrap = if s.fault = none then { s with inTrap := false } else s := by
  rcases s.latched_or_none with hl | hf
  · rw [State.leaveTrap, if_pos hl, if_neg ((State.latched_iff s).mp hl)]
  · rw [State.leaveTrap_of_none hf, if_pos hf]

/-- A notification adds its own entry to notifyLog, and no command of the answer adds another (42_trap.md R110, R113). -/
theorem notify_notifyLog {s t : State} {k : RegIndex} {v : Byte} (h : notify k v s = .next t) :
    t.notifyLog = s.notifyLog ++ [{ k := k, v := v }] := by
  obtain ⟨a, -, cs, n, -, rfl⟩ := notify_eq_next h
  rw [State.leaveTrap_notifyLog, (runAnswer_frame cs _).notifyLog]

/-- Settles O44: the frame of a command, the one log entry, and the answer taken, which is one that MAPPER may give. -/
theorem notificationFrame : Obligations.NotificationFrame := by
  unfold Obligations.NotificationFrame
  intro s t k v hf hexec
  have frame := exec_frame hexec
  rw [exec_notify_body hf] at hexec
  refine ⟨frame.mode, frame.mapper, frame.requests, frame.lens, notify_notifyLog hexec, ?_⟩
  obtain ⟨a, ha, cs, n, hd, rfl⟩ := notify_eq_next hexec
  rw [State.leaveTrap_readMap, State.leaveTrap_writeMap, State.leaveTrap_blocks]
  exact ⟨fun hbind => runAnswer_maps (hbind a cs ha hd) _, fun hcopy => runAnswer_blocks (hcopy a cs ha hd) _⟩

/-- Settles O45: `notify_cases`, where a list of whole commands is never refused. -/
theorem notifyRunsOneMapperAnswer : Obligations.NotifyRunsOneMapperAnswer := by
  unfold Obligations.NotifyRunsOneMapperAnswer
  intro s k v hf hwhole
  rw [exec_notify_body hf]
  obtain ⟨a, ha, ⟨hnone, -⟩ | ⟨cs, n, hd, e⟩⟩ := notify_cases k v s
  · obtain ⟨cs, hcs⟩ := decodeAll_of_whole (hwhole a ha)
    exact absurd (hnone.symm.trans hcs) (by simp)
  · exact ⟨a, ha, cs, n, _, hd, rfl, by rw [e, State.leaveTrap_eq_ite]⟩

/-- Where MAPPER's set has no other member, that member's commands are run (42_trap.md R110). -/
theorem exec_notify_of_only_answer {s : State} {k : RegIndex} {v : Byte} {a : Answer} {cs : List Command}
    (hf : s.fault = none) (honly : ∀ a', s.MayAnswer k v a' → a' = a) (hd : decodeAll a.words = some cs) :
    ∃ n, exec (.notify k v) s =
      .next (runAnswer cs { s with notifyLog := s.notifyLog ++ [{ k := k, v := v }], mapperState := a.next, inTrap := true, draws := n }).leaveTrap := by
  rw [exec_notify_body hf]
  obtain ⟨a', ha', ⟨hnone, -⟩ | ⟨cs', n, hd', e⟩⟩ := notify_cases k v s
  · rw [honly a' ha', hd] at hnone
    cases hnone
  · obtain rfl := honly a' ha'
    obtain rfl : cs = cs' := Option.some.inj (hd.symm.trans hd')
    exact ⟨n, e⟩

/-- Settles O46: the empty answer runs no command, and the return clears inTrap again. -/
theorem unansweredNotificationOnlyLogs : Obligations.UnansweredNotificationOnlyLogs := by
  unfold Obligations.UnansweredNotificationOnlyLogs
  intro s k v hf hi honly
  obtain ⟨n, e⟩ := exec_notify_of_only_answer (cs := []) hf honly rfl
  refine ⟨n, e.trans ?_⟩
  rw [runAnswer, State.leaveTrap_of_none, hi]
  exact hf

theorem bindEntry_of_lt {s : State} {b : BlockId} (hb : b.toNat < s.blocks.length) (d : Dir) (p : Page) :
    bindEntry d p b s = s.setEntry d p (.bound b) := by
  rw [bindEntry, if_pos (State.hasBlock_iff.mpr hb)]

/-- Settles O47: the answer is the one BIND, which finds its block in the arena and latches nothing. -/
theorem notificationAnsweredByBindRebinds : Obligations.NotificationAnsweredByBindRebinds := by
  unfold Obligations.NotificationAnsweredByBindRebinds
  intro s k v next page b hf hi honly hb
  have hd : decodeAll (encode (.bind .r page b)) = some [.instr (.bind .r page b)] :=
    decodeAll_flatMap_encode (is := [.bind .r page b]) (by simp [Instr.wfRequest, Instr.wf])
  obtain ⟨n, e⟩ := exec_notify_of_only_answer hf honly hd
  refine ⟨n, e.trans ?_⟩
  rw [runAnswer_cons_of_none, runAnswer, runNested, bindEntry_of_lt, State.setEntry_r, State.leaveTrap_of_none, hi]
  · exact hf
  · exact hb
  · exact hf

/-- Settles O49: `runAnswer_concat`; the answer is run with inTrap true, and the return clears it unless a fault is latched. -/
theorem faultInsideTheAnswerStopsIt : Obligations.FaultInsideTheAnswerStopsIt := by
  unfold Obligations.FaultInsideTheAnswerStopsIt
  refine ⟨runAnswer_concat, fun s t k v hf hexec => ?_⟩
  rw [exec_notify_body hf] at hexec
  obtain ⟨a, -, cs, n, -, rfl⟩ := notify_eq_next hexec
  rw [State.leaveTrap_inTrap, (runAnswer_frame cs _).inTrap, State.leaveTrap_fault, Bool.and_true, State.latched_iff]

/-! ## A command inside an answer -/

theorem exec_reset_inTrap {s : State} (hf : s.fault = none) (hi : s.inTrap = true) :
    exec .reset s = .next (s.raise (reentrantRecord .reset (firstWord .reset))) :=
  (State.unlessLatched_of_none hf _).trans (State.unlessInTrap_of_true hi _ _ _)

/-- Inside an answer a request is its nested effect: where it is checked for reentrancy, the fault (42_trap.md R111, R113). -/
theorem exec_eq_runNested {s : State} (hf : s.fault = none) (hi : s.inTrap = true) {i : Instr}
    (hw : i.wfRequest = true) : exec i s = .next (runNested (.instr i) s) := by
  cases i with
  | rb a => exact exec_rb_inTrap hf hi a
  | wb a v => exact exec_wb_inTrap hf hi a v
  | rw a => exact exec_rw_inTrap hf hi a
  | reset => exact exec_reset_inTrap hf hi
  | trans a => exact State.unlessLatched_of_none hf _
  | bind d p b => exact State.unlessLatched_of_none hf _
  | resolve d p => exact State.unlessLatched_of_none hf _
  | copy sb sp db dp n => exact State.unlessLatched_of_none hf _
  | illegal w => exact State.unlessLatched_of_none hf _
  | notify k v => cases hw

/-- Settles O48: `exec_eq_runNested`, and a reserved bit is checked behind the latch alone. -/
theorem nestedCommandIsTheCommand : Obligations.NestedCommandIsTheCommand := by
  unfold Obligations.NestedCommandIsTheCommand
  exact fun s i op w hf hi => ⟨exec_eq_runNested hf hi, State.unlessLatched_of_none hf _⟩

theorem resolveEntry_fault_code {s : State} {d : Dir} {p : Page} {r : FaultRecord} (hf : s.fault = none)
    (h : (resolveEntry d p s).fault = some r) : r.code = .unmappedPage := by
  rcases resolveEntry_cases d p s with ⟨b, -, e⟩ | ⟨-, -, e⟩ | ⟨-, -, r', e, hcode, -⟩ <;> rw [e] at h
  · exact absurd (hf.symm.trans h) (by simp)
  · exact absurd (hf.symm.trans h) (by simp)
  · cases h
    exact hcode

theorem bindEntry_fault_code {s : State} {d : Dir} {p : Page} {b : BlockId} {r : FaultRecord} (hf : s.fault = none)
    (h : (bindEntry d p b s).fault = some r) : r.code = .invalidBlock := by
  rcases bindEntry_cases d p b s with ⟨-, e⟩ | ⟨-, r', e, hcode, -⟩ <;> rw [e] at h
  · rw [State.setEntry_fault, hf] at h
    cases h
  · cases h
    exact hcode

theorem copyLoop_fault (sb : BlockId) (sp : Nat) (db : BlockId) (dp n : Nat) (s : State) :
    (copyLoop sb sp db dp n s).fault = s.fault :=
  (congrArg State.fault (copyLoop_fixed sb sp db dp n s).1 :)

theorem copyRange_fault_code {c : CopyOperands} {s : State} {r : FaultRecord} (hf : s.fault = none)
    (h : (copyRange c s).fault = some r) : r.code = .invalidBlock ∨ r.code = .offsetOutOfRange := by
  rcases copyRange_cases c s with ⟨r', e, -, -, hcode⟩ | e | ⟨e, -⟩ <;> rw [e] at h
  · cases h
    exact hcode.imp_right And.left
  · exact absurd (hf.symm.trans h) (by simp)
  · rw [copyLoop_fault, hf] at h
    cases h

/-- Settles O50: the four accesses stop at their check; the others raise kinds of their own, and the log is in the frame of a nested command. -/
theorem reentrancyCheck : Obligations.ReentrancyCheck := by
  unfold Obligations.ReentrancyCheck
  intro s hf hi
  refine ⟨fun a v => ⟨exec_rb_inTrap hf hi a, exec_wb_inTrap hf hi a v, exec_rw_inTrap hf hi a,
    exec_reset_inTrap hf hi⟩, fun i t r hw hexec => ?_⟩
  rw [exec_eq_runNested hf hi hw] at hexec
  cases hexec
  refine ⟨(runNested_frame (.instr i) s).notifyLog, ?_⟩
  rintro (⟨a, rfl⟩ | ⟨d, p, rfl⟩ | ⟨d, p, b, rfl⟩ | ⟨sb, sp, db, dp, n, rfl⟩) hr
  · exact absurd (hf.symm.trans hr) (by simp)
  · simp [resolveEntry_fault_code hf hr]
  · simp [bindEntry_fault_code hf hr]
  · rcases copyRange_fault_code hf hr with hcode | hcode <;> simp [hcode]

/-! ## Which WB notifies -/

/-- A WB whose place is found passes its check (40_translation.md R86). -/
theorem State.accessCovered_wb_of_found {s : State} {a : Addr} {b : BlockId} {n : Nat}
    (hb : s.writeMap[a.toNat / 1024]? = some (.bound b)) (hn : s.lenOf b = some n) (hlt : a.toNat % 1024 < n) (v : Byte) :
    s.accessCovered (.wb a v) = true := by
  rw [State.accessCovered, pageOf_widen, offsetOf_widen]
  exact State.covers_eq_true.mpr ⟨b, n, hb, hn, hlt⟩

/-- A WB outside an answer: what follows a store, with the log as it was, if its check passes or fails in Release mode; a fault latched and nothing else if it fails in Debug mode (41_access.md R92). -/
theorem exec_wb_passed_or_faulted {s t : State} {a : Addr} {v : Byte} (hf : s.fault = none) (hi : s.inTrap = false)
    (h : exec (.wb a v) s = .next t) :
    ((s.mode = .release ∨ s.accessCovered (.wb a v) = true) ∧
      ∃ u : State, u.notifyLog = s.notifyLog ∧ afterStore a v u = .next t) ∨
    (s.mode = .debug ∧ s.accessCovered (.wb a v) = false ∧ ∃ r, t = s.raise r) := by
  cases hc : s.accessCovered (.wb a v)
  case true =>
    obtain ⟨b, n, hb, hn, hlt⟩ := State.accessCovered_wb hc
    rw [exec_wb_found v hf hi hb hn hlt] at h
    exact .inl ⟨.inr rfl, s.blkSet b (a.toNat % 1024) v, rfl, h⟩
  case false =>
    rw [exec_wb_body hf hi] at h
    rcases writeByteAt_cases a v s with ⟨b, n, hb, hn, hlt, -⟩ | ⟨hm, e, -⟩ | ⟨r, hm, e, -⟩ | ⟨b, -, -, e⟩
    · exact absurd (State.accessCovered_wb_of_found hb hn hlt v) (by simp [hc])
    · exact .inl ⟨.inl hm, s, rfl, e.symm.trans h⟩
    · rw [e] at h
      cases h
      exact .inr ⟨hm, rfl, r, rfl⟩
    · rw [e] at h
      cases h

/-- After a store the notification is issued from 0xFFFC on and not below (42_trap.md R114). -/
theorem afterStore_notifyLog {s t : State} {a : Addr} {v : Byte} (h : afterStore a v s = .next t) :
    (a.toNat < 0xFFFC → t.notifyLog = s.notifyLog) ∧
    (0xFFFC ≤ a.toNat → t.notifyLog = s.notifyLog ++ [{ k := BitVec.ofNat 2 (a.toNat - 0xFFFC), v := v }]) := by
  refine ⟨fun ha => ?_, fun ha => ?_⟩
  · rw [afterStore_low ha] at h
    cases h
    rfl
  · rw [afterStore, if_pos ((isPagingAddr_iff a).mpr ha), pagingIndex_eq ha] at h
    exact notify_notifyLog h

/-- Settles O51: past its check a WB is what follows a store; a check that fails in Debug mode leaves the log. -/
theorem wbNotifiesExactlyOnce : Obligations.WbNotifiesExactlyOnce := by
  unfold Obligations.WbNotifiesExactlyOnce
  intro s t a v hf hi hexec
  rcases exec_wb_passed_or_faulted hf hi hexec with ⟨hpass, u, hu, h⟩ | ⟨hm, hc, r, rfl⟩
  · rw [← hu]
    obtain ⟨low, high⟩ := afterStore_notifyLog h
    exact ⟨low, fun ha _ => high ha, fun hm hc => absurd hpass (by simp [hm, hc])⟩
  · exact ⟨fun _ => rfl, fun _ hpass => absurd hpass (by simp [hm, hc]), fun _ _ => ⟨rfl, by simp⟩⟩

end Sys2Proof.Machine
end

section
/-! The family 43_bulk_copy.md: COPY's checks, its frame, and its destination bytes where the ranges fit and where they do not. -/

namespace Sys2Proof.Machine

/-! ## COPY's checks -/

theorem copyRange_of_no_srcBlk {c : CopyOperands} {s : State} (hs : s.blocks.length ≤ c.srcBlk.toNat) :
    copyRange c s = s.raise (copyInvalidBlock c c.srcBlk) := by
  simp [copyRange, State.hasBlock, hs]

theorem copyRange_of_no_destBlk {c : CopyOperands} {s : State} (hs : c.srcBlk.toNat < s.blocks.length)
    (hd : s.blocks.length ≤ c.destBlk.toNat) : copyRange c s = s.raise (copyInvalidBlock c c.destBlk) := by
  simp [copyRange, State.hasBlock, hs, hd]

/-- Past the checks of the block ids: length 0, then in Debug mode the ranges, then the loop (43_bulk_copy.md R120). -/
theorem copyRange_of_blocks {c : CopyOperands} {s : State} {ls ld : Nat} (hs : s.lenOf c.srcBlk = some ls)
    (hd : s.lenOf c.destBlk = some ld) :
    copyRange c s =
      if c.length = 0#32 then s
      else if s.mode = .debug ∧
          (ls < c.srcPos.toNat + c.length.toNat ∨ ld < c.destPos.toNat + c.length.toNat) then
        s.raise (copyOutOfRange c)
      else copyLoop c.srcBlk c.srcPos.toNat c.destBlk c.destPos.toNat c.length.toNat s := by
  have hsrc := State.hasBlock_iff_lenOf.mpr ⟨ls, hs⟩
  have hdest := State.hasBlock_iff_lenOf.mpr ⟨ld, hd⟩
  simp [copyRange, hsrc, hdest, State.rangeFits, hs, hd, State.isDebug]

/-- In Release mode COPY of two blocks of the arena is the loop, whatever the ranges; with length 0 the loop does nothing. -/
theorem copyRange_release {c : CopyOperands} {s : State} {ls ld : Nat} (hm : s.mode = .release)
    (hs : s.lenOf c.srcBlk = some ls) (hd : s.lenOf c.destBlk = some ld) :
    copyRange c s = copyLoop c.srcBlk c.srcPos.toNat c.destBlk c.destPos.toNat c.length.toNat s := by
  rw [copyRange_of_blocks hs hd]
  by_cases hn : c.length = 0#32
  · rw [if_pos hn, hn]
    rfl
  · rw [if_neg hn, if_neg (by simp [hm])]

/-- Settles O53: the equations of `copyRange`, check by check. -/
theorem copyChecks : Obligations.CopyChecks := by
  unfold Obligations.CopyChecks
  intro s sb db sp dp n hf
  rw [exec_copy_body hf]
  refine ⟨fun hs => ?_, fun hs hd => ?_, fun ls ld hs hd => ⟨fun hn => ?_, fun hn hm hout => ?_⟩⟩
  · rw [copyRange_of_no_srcBlk hs]
    rfl
  · rw [copyRange_of_no_destBlk hs hd]
    rfl
  · rw [copyRange_of_blocks hs hd, if_pos hn]
  · rw [copyRange_of_blocks hs hd, if_neg hn, if_pos ⟨hm, hout⟩]
    rfl

/-! ## What COPY leaves unchanged -/

/-- Settles O43: with a fault latched nothing happens, and past the latch the frame is `copyRange`'s. -/
theorem copyFrame : Obligations.CopyFrame := by
  unfold Obligations.CopyFrame
  intro s t sb db sp dp n hwf hexec
  rcases s.latched_or_none with hl | hf
  · rw [exec_of_latched _ hl] at hexec
    cases hexec
    exact ⟨rfl, fun _ => rfl, fun _ _ _ => rfl⟩
  · rw [exec_copy_body hf] at hexec
    cases hexec
    obtain ⟨hfixed, hlens⟩ := copyRange_fixed ⟨sb, sp, db, dp, n⟩ s
    exact ⟨hfixed, State.lenOf_of_lens hlens, (copyRange_frame ⟨sb, sp, db, dp, n⟩ (State.wf_iff.mp hwf).1).2⟩

/-! ## Ranges that fit -/

/-- A loop whose ranges fit changes block bytes alone. -/
theorem copyLoop_changes_blocks {s : State} (h : arenaWf s.blocks = true) {sb db : BlockId} {sp dp n ls ld : Nat}
    (hs : s.lenOf sb = some ls) (hd : s.lenOf db = some ld) (fs : sp + n ≤ ls) (fd : dp + n ≤ ld) :
    copyLoop sb sp db dp n s = { s with blocks := (copyLoop sb sp db dp n s).blocks } := by
  have hfixed := (copyLoop_fixed sb sp db dp n s).1
  rwa [copyLoop_draws sb sp db dp n h hs hd fs fd] at hfixed

/-- COPY of ranges that fit: it completes, changes the destination range alone, and a destination byte is what the COPY left at its source index where that index lies in the destination range above, the original source byte otherwise (43_bulk_copy.md R120, R122). -/
theorem exec_copy_fits {s : State} (hwf : s.wf = true) (hf : s.fault = none) {sb db : BlockId} {sp dp n : Position}
    {ls ld : Nat} (hs : s.lenOf sb = some ls) (hd : s.lenOf db = some ld) (fs : sp.toNat + n.toNat ≤ ls)
    (fd : dp.toNat + n.toNat ≤ ld) :
    ∃ t, exec (.copy sb sp db dp n) s = .next t ∧ t = { s with blocks := t.blocks } ∧
      (∀ (b : BlockId) (j : Nat), ¬ (b = db ∧ dp.toNat ≤ j ∧ j < dp.toNat + n.toNat) →
        t.readByte b j = s.readByte b j) ∧
      ∀ i < n.toNat, t.readByte db (dp.toNat + i) =
        if sb = db ∧ dp.toNat < sp.toNat ∧ sp.toNat + i < dp.toNat + n.toNat then t.readByte db (sp.toNat + i)
        else s.readByte sb (sp.toNat + i) := by
  have harena := (State.wf_iff.mp hwf).1
  rw [exec_copy_body hf, copyRange_fits hs hd fs fd]
  exact ⟨_, rfl, copyLoop_changes_blocks harena hs hd fs fd, (copyLoop_frame sb _ db _ _ harena).2,
    (copyLoop_bytes sb _ db _ _ harena hs hd fs fd).2⟩

/-- Settles O54: where the ranges are disjoint no source index lies in the destination range. -/
theorem copyOfDisjointRanges : Obligations.CopyOfDisjointRanges := by
  unfold Obligations.CopyOfDisjointRanges
  intro s sb db sp dp n ls ld hwf hf hs hd fs fd hdisjoint
  obtain ⟨t, hexec, hblocks, hframe, hbytes⟩ := exec_copy_fits hwf hf hs hd fs fd
  refine ⟨t, hexec, hblocks, fun b j => ?_⟩
  by_cases hin : b = db ∧ dp.toNat ≤ j ∧ j < dp.toNat + n.toNat
  · obtain ⟨rfl, hle, hlt⟩ := hin
    have hbyte := hbytes (j - dp.toNat) (by omega)
    rw [Nat.add_sub_cancel' hle] at hbyte
    rw [if_pos ⟨rfl, hle, hlt⟩, hbyte, if_neg]
    rintro ⟨rfl, hleft, hoverlap⟩
    exact hdisjoint.elim (absurd rfl) (by omega)
  · rw [if_neg hin, hframe b j hin]

/-- Settles O55: with destPos >= srcPos no step reads a byte written before it. -/
theorem copyRightwardIsMemmove : Obligations.CopyRightwardIsMemmove := by
  unfold Obligations.CopyRightwardIsMemmove
  intro s b sp dp n len hwf hf hlen hright hfits
  obtain ⟨t, hexec, hblocks, -, hbytes⟩ := exec_copy_fits (sp := sp) (dp := dp) hwf hf hlen hlen (by omega) hfits
  exact ⟨t, hexec, hblocks, fun i hi => (hbytes i hi).trans (if_neg (by omega))⟩

/-- Settles O56: `exec_copy_fits`, where the blocks are one and the copy is leftward. -/
theorem copyLeftwardKeepsDescendingOrder : Obligations.CopyLeftwardKeepsDescendingOrder := by
  unfold Obligations.CopyLeftwardKeepsDescendingOrder
  intro s b sp dp n len hwf hf hlen hleft hfits
  obtain ⟨t, hexec, hblocks, -, hbytes⟩ := exec_copy_fits (sp := sp) (dp := dp) hwf hf hlen hlen hfits (by omega)
  exact ⟨t, hexec, hblocks, fun i hi => by simpa [hleft] using hbytes i hi⟩

/-! ## Ranges past their block's end -/

/-- Settles O57: in Release mode no range is checked, so COPY is the loop. -/
theorem copyReleaseOutOfRange : Obligations.CopyReleaseOutOfRange := by
  unfold Obligations.CopyReleaseOutOfRange
  intro s sb db sp dp n ls ld hwf hf hm hs hd
  rw [exec_copy_body hf, copyRange_release hm hs hd]
  exact ⟨_, rfl, (copyLoop_fixed sb _ db _ _ s).1,
    copyLoop_bytes_any sb _ db _ _ (State.wf_iff.mp hwf).1 hs hd⟩

end Sys2Proof.Machine
end

section
/-! The family 44_session.md: RESET makes every entry Absent, and in Debug mode an access through an Absent entry raises UnmappedPage. -/

namespace Sys2Proof.Machine

/-! ## An access through an Absent entry -/

section

variable {s : State} {a : Addr} (hf : s.fault = none) (hi : s.inTrap = false) (hm : s.mode = .debug)
include hf hi hm

theorem exec_rb_absent_debug (habsent : s.entry .r (a.toNat / 1024) = .absent) :
    ∃ r, exec (.rb a) s = .next (s.raise r) ∧ r.code = .unmappedPage :=
  ⟨_, (exec_rb_failed hf hi (State.check_absent habsent _ _ _ _ _)).1 hm, rfl⟩

theorem exec_wb_absent_debug (v : Byte) (habsent : s.entry .w (a.toNat / 1024) = .absent) :
    ∃ r, exec (.wb a v) s = .next (s.raise r) ∧ r.code = .unmappedPage :=
  ⟨_, (exec_wb_failed hf hi (State.check_absent habsent _ _ _ _ _)).1 hm, rfl⟩

/-- On either path of RW the check of the low byte's page is the first (41_access.md R95). -/
theorem exec_rw_absent_debug (habsent : s.entry .r (a.toNat / 1024) = .absent) :
    ∃ r, exec (.rw a) s = .next (s.raise r) ∧ r.code = .unmappedPage := by
  by_cases hfast : a.toNat % 1024 < 1023
  · exact ⟨_, (exec_rw_fast_failed hf hi hfast (State.check_absent habsent _ _ _ _ _)).1 hm, rfl⟩
  · exact ⟨_, exec_rw_split_low_failed hf hi (by omega) hm (State.check_absent habsent _ _ _ _ _), rfl⟩

end

/-! ## RESET -/

theorem exec_reset_body {s : State} (hf : s.fault = none) (hi : s.inTrap = false) :
    exec .reset s = .next (clearMaps s) :=
  (State.unlessLatched_of_none hf _).trans (State.unlessInTrap_of_false hi _ _ _)

theorem clearMaps_mapOf (s : State) (d : Dir) : (clearMaps s).mapOf d = PageMap.allAbsent := by
  cases d <;> rfl

/-- After RESET no page is bound in either map (44_session.md R130). -/
theorem clearMaps_entry (s : State) (d : Dir) (p : Nat) : (clearMaps s).entry d p = .absent := by
  rw [State.entry, clearMaps_mapOf, PageMap.allAbsent, Vector.getElem?_replicate]
  split <;> rfl

/-- RB, RW and WB find their page Absent after RESET. -/
theorem exec_access_clearMaps_debug {s : State} (hf : s.fault = none) (hi : s.inTrap = false) (hm : s.mode = .debug)
    (a : Addr) (v : Byte) {i : Instr} (hmem : i ∈ [Instr.rb a, .rw a, .wb a v]) :
    ∃ r, exec i (clearMaps s) = .next ((clearMaps s).raise r) ∧ r.code = .unmappedPage := by
  simp only [List.mem_cons, List.not_mem_nil, or_false] at hmem
  rcases hmem with rfl | rfl | rfl
  · exact exec_rb_absent_debug (s := clearMaps s) hf hi hm (clearMaps_entry s .r _)
  · exact exec_rw_absent_debug (s := clearMaps s) hf hi hm (clearMaps_entry s .r _)
  · exact exec_wb_absent_debug (s := clearMaps s) hf hi hm v (clearMaps_entry s .w _)

/-- Settles O58: RESET is `clearMaps` behind the latch and the reentrancy check. -/
theorem resetClearsBothMaps : Obligations.ResetClearsBothMaps := by
  unfold Obligations.ResetClearsBothMaps
  refine fun s => ⟨fun hf hi => ⟨exec_reset_body hf hi, fun hm t ht a v i hmem => ?_⟩,
    fun hf hi => exec_reset_inTrap hf hi, fun hf => exec_of_latched _ ((State.latched_iff s).mpr hf)⟩
  cases (exec_reset_body hf hi).symm.trans ht
  obtain ⟨r, hexec, hcode⟩ := exec_access_clearMaps_debug hf hi hm a v hmem
  exact ⟨_, r, hexec, rfl, hcode⟩

end Sys2Proof.Machine
end

section
/-! The family 60_exceptions.md: what a command does to the fault latch. A command other than WB and the notification keeps the latch or raises its own record and nothing else; in Release mode that record is none of addressing, nor is one that a WB or a command of the mapper's answer raises. -/

namespace Sys2Proof.Machine

/-- The two kinds that Release mode never raises (60_exceptions.md R146). -/
def FaultKind.isAddressing (c : FaultKind) : Bool :=
  match c with
  | .unmappedPage => true
  | .offsetOutOfRange => true
  | _ => false

theorem FaultKind.isAddressing_eq_false {c : FaultKind} :
    c.isAddressing = false ↔ c ≠ .unmappedPage ∧ c ≠ .offsetOutOfRange := by
  cases c <;> decide

/-- What a command with first word `w` leaves of the latch: what it was, or, as the command's only change, a record of its own with that word, which names addressing in Debug mode only (60_exceptions.md R141, R145, R146). -/
inductive LatchEffect (s : State) (w : Word) : State → Prop
  | kept {t : State} (h : t.fault = s.fault) : LatchEffect s w t
  | raised (r : FaultRecord) (word : r.word = w) (code : s.mode = .release → r.code.isAddressing = false) :
    LatchEffect s w (s.raise r)

/-! ## One command -/

/-- A record raised in Debug mode says nothing of Release mode. -/
theorem LatchEffect.raised_in_debug {s : State} (hm : s.mode = .debug) {r : FaultRecord} {w : Word} (word : r.word = w) :
    LatchEffect s w (s.raise r) :=
  .raised r word fun hr => absurd (hm.symm.trans hr) (by decide)

theorem LatchEffect.reentrant (s : State) (op : Mnemonic) (w : Word) : LatchEffect s w (s.raise (reentrantRecord op w)) :=
  .raised _ rfl fun _ => rfl

theorem resolveEntry_latchEffect (d : Dir) (p : Page) (s : State) :
    LatchEffect s (firstWord (.resolve d p)) (resolveEntry d p s) := by
  rcases resolveEntry_cases d p s with ⟨b, -, e⟩ | ⟨-, -, e⟩ | ⟨-, hm, r, e, -, -, hword⟩ <;> rw [e]
  · exact .kept rfl
  · exact .kept rfl
  · exact .raised_in_debug hm hword

theorem bindEntry_latchEffect (d : Dir) (p : Page) (b : BlockId) (s : State) :
    LatchEffect s (firstWord (.bind d p b)) (bindEntry d p b s) := by
  rcases bindEntry_cases d p b s with ⟨-, e⟩ | ⟨-, r, e, hcode, -, hword⟩ <;> rw [e]
  · exact .kept (State.setEntry_fault s d p _)
  · exact .raised r hword fun _ => hcode ▸ rfl

theorem copyRange_latchEffect (c : CopyOperands) (s : State) :
    LatchEffect s (firstWord (.copy c.srcBlk c.srcPos c.destBlk c.destPos c.length)) (copyRange c s) := by
  rcases copyRange_cases c s with ⟨r, e, -, hword, hcode | ⟨-, hm⟩⟩ | e | ⟨e, -⟩ <;> rw [e]
  · exact .raised r hword fun _ => hcode ▸ rfl
  · exact .raised_in_debug hm hword
  · exact .kept rfl
  · exact .kept (copyLoop_fault _ _ _ _ _ s)

theorem readByteAt_latchEffect {a : Addr} {s t : State} (h : readByteAt a s = .next t) :
    LatchEffect s (firstWord (.rb a)) t := by
  rcases readByteAt_cases a s with ⟨b, v, -, -, e⟩ | ⟨-, e⟩ | ⟨r, hm, e, hword⟩ | ⟨b, -, -, e⟩ <;> rw [e] at h <;> cases h
  · exact .kept rfl
  · exact .kept rfl
  · exact .raised_in_debug hm hword

theorem readWordAt_latchEffect {a : Addr} {s t : State} (h : readWordAt a s = .next t) :
    LatchEffect s (firstWord (.rw a)) t := by
  rcases readWordAt_cases a s with ⟨b1, b2, low, high, -, -, -, -, e⟩ | ⟨-, e⟩ | ⟨r, hm, e, hword⟩ | ⟨p, b, -, -, e⟩ <;>
    rw [e] at h <;> cases h
  · exact .kept rfl
  · exact .kept rfl
  · exact .raised_in_debug hm hword

/-- A command of the mapper's answer, whatever it is. -/
theorem runNested_latchEffect (i : Instr) (s : State) : LatchEffect s (firstWord i) (runNested (.instr i) s) := by
  cases i with
  | trans a => exact .kept rfl
  | rb a => exact .reentrant s _ _
  | wb a v => exact .reentrant s _ _
  | rw a => exact .reentrant s _ _
  | bind d p b => exact bindEntry_latchEffect d p b s
  | resolve d p => exact resolveEntry_latchEffect d p s
  | copy sb sp db dp n => exact copyRange_latchEffect ⟨sb, sp, db, dp, n⟩ s
  | reset => exact .reentrant s _ _
  | illegal w => exact .raised _ rfl fun _ => rfl
  | notify k v => exact .kept rfl

/-- A word with a reserved bit set raises ReservedFieldNonzero (30_encoding.md R75). -/
theorem raiseReserved_latchEffect (op : Mnemonic) (w : Word) (s : State) : LatchEffect s w (raiseReserved op w s) :=
  .raised _ rfl fun _ => rfl

/-- Where the latch is checked and nothing else, a command keeps the latch or does its effect. -/
theorem State.unlessLatched_latchEffect {s t u : State} {w : Word} (heffect : LatchEffect s w u)
    (h : s.unlessLatched (.next u) = .next t) : LatchEffect s w t := by
  rcases State.unlessLatched_eq_next h with ⟨-, rfl⟩ | ⟨-, h⟩
  · exact .kept rfl
  · cases h
    exact heffect

/-- Where the latch and inTrap are checked, a command keeps the latch, raises ReentrantAccess, or does its effect. -/
theorem State.checks_latchEffect {s t : State} {op : Mnemonic} {w : Word} {body : Host.Outcome State Fault Refusal}
    (heffect : body = .next t → LatchEffect s w t) (h : s.unlessLatched (s.unlessInTrap op w body) = .next t) :
    LatchEffect s w t := by
  rcases State.checks_eq_next h with ⟨-, rfl⟩ | rfl | ⟨-, -, h⟩
  · exact .kept rfl
  · exact .reentrant s op w
  · exact heffect h

/-- Every command but WB and the notification: those not checked for reentrancy do what they do inside an answer. -/
theorem exec_latchEffect {i : Instr} {s t : State} (hwb : ∀ a v, i ≠ .wb a v) (hnotify : ∀ k v, i ≠ .notify k v)
    (h : exec i s = .next t) : LatchEffect s (firstWord i) t := by
  cases i with
  | wb a v => exact absurd rfl (hwb a v)
  | notify k v => exact absurd rfl (hnotify k v)
  | rb a => exact State.checks_latchEffect readByteAt_latchEffect h
  | rw a => exact State.checks_latchEffect readWordAt_latchEffect h
  | reset => exact State.checks_latchEffect (fun e => by cases e; exact .kept rfl) h
  | trans a => exact State.unlessLatched_latchEffect (runNested_latchEffect (.trans a) s) h
  | bind d p b => exact State.unlessLatched_latchEffect (runNested_latchEffect (.bind d p b) s) h
  | resolve d p => exact State.unlessLatched_latchEffect (runNested_latchEffect (.resolve d p) s) h
  | copy sb sp db dp n => exact State.unlessLatched_latchEffect (runNested_latchEffect (.copy sb sp db dp n) s) h
  | illegal w => exact State.unlessLatched_latchEffect (runNested_latchEffect (.illegal w) s) h

/-- Settles O59: the latch was empty, so the command did not keep it but raised its record. -/
theorem faultingCommandOnlyLatches : Obligations.FaultingCommandOnlyLatches := by
  unfold Obligations.FaultingCommandOnlyLatches
  intro s t i r hwb hnotify hf hexec hr
  cases exec_latchEffect hwb hnotify hexec with
  | kept h => exact absurd (hr.symm.trans (h.trans hf)) (by simp)
  | raised r' hword _ =>
    cases hr
    exact ⟨rfl, hword⟩

/-! ## Release mode -/

/-- The mode is Release and no fault of addressing is latched: what a step keeps (60_exceptions.md R146). -/
structure State.NoAddressingFault (s : State) : Prop where
  mode : s.mode = .release
  code : ∀ r, s.fault = some r → r.code.isAddressing = false

theorem State.NoAddressingFault.of_none {s : State} (hm : s.mode = .release) (hf : s.fault = none) : s.NoAddressingFault :=
  ⟨hm, fun _ hr => absurd (hf.symm.trans hr) (by simp)⟩

/-- It depends on MODE and the latch alone. -/
theorem State.NoAddressingFault.congr {s t : State} (h : s.NoAddressingFault) (hm : t.mode = s.mode)
    (hf : t.fault = s.fault) : t.NoAddressingFault :=
  ⟨hm.trans h.mode, fun r hr => h.code r (hf.symm.trans hr)⟩

theorem LatchEffect.noAddressingFault {s t : State} {w : Word} (h : LatchEffect s w t) (hs : s.NoAddressingFault)
    (hm : t.mode = s.mode) : t.NoAddressingFault := by
  cases h with
  | kept hf => exact hs.congr hm hf
  | raised r _ hcode =>
    refine ⟨hm.trans hs.mode, fun r' hr => ?_⟩
    cases hr
    exact hcode hs.mode

theorem runNested_noAddressingFault (c : Command) {s : State} (hs : s.NoAddressingFault) :
    (runNested c s).NoAddressingFault := by
  have hm := (runNested_frame c s).mode
  cases c with
  | instr i => exact (runNested_latchEffect i s).noAddressingFault hs hm
  | reserved op w => exact (raiseReserved_latchEffect op w s).noAddressingFault hs hm

/-- The answer runs in the mode of the session, so each of its commands raises no fault of addressing. -/
theorem notify_noAddressingFault {s t : State} {k : RegIndex} {v : Byte} (hs : s.NoAddressingFault)
    (h : notify k v s = .next t) : t.NoAddressingFault := by
  obtain ⟨a, -, cs, n, -, rfl⟩ := notify_eq_next h
  refine State.NoAddressingFault.congr ?_ (State.leaveTrap_mode _) (State.leaveTrap_fault _)
  exact runAnswer_keeps (fun c _ _ => runNested_noAddressingFault c) (hs.congr rfl rfl)

theorem afterStore_noAddressingFault {s t : State} {a : Addr} {v : Byte} (hs : s.NoAddressingFault)
    (h : afterStore a v s = .next t) : t.NoAddressingFault := by
  unfold afterStore at h
  split at h
  · exact notify_noAddressingFault hs h
  · cases h
    exact hs

/-- In Release mode WB stores its byte or not and goes on to the notification; its check raises nothing (41_access.md R92). -/
theorem writeByteAt_noAddressingFault {s t : State} {a : Addr} {v : Byte} (hs : s.NoAddressingFault)
    (h : writeByteAt a v s = .next t) : t.NoAddressingFault := by
  rcases writeByteAt_cases a v s with ⟨b, n, -, -, -, e⟩ | ⟨-, e, -⟩ | ⟨r, hm, -⟩ | ⟨b, -, -, e⟩
  · exact afterStore_noAddressingFault (s := s.blkSet b (a.toNat % 1024) v) (hs.congr rfl rfl) (e.symm.trans h)
  · exact afterStore_noAddressingFault hs (e.symm.trans h)
  · exact absurd (hm.symm.trans hs.mode) (by decide)
  · exact absurd (e.symm.trans h) (by simp)

theorem exec_wb_noAddressingFault {s t : State} {a : Addr} {v : Byte} (hs : s.NoAddressingFault)
    (h : exec (.wb a v) s = .next t) : t.NoAddressingFault := by
  rcases State.checks_eq_next h with ⟨-, rfl⟩ | rfl | ⟨-, -, h⟩
  · exact hs
  · exact (LatchEffect.reentrant s _ _).noAddressingFault hs rfl
  · exact writeByteAt_noAddressingFault hs h

theorem exec_notify_noAddressingFault {s t : State} {k : RegIndex} {v : Byte} (hs : s.NoAddressingFault)
    (h : exec (.notify k v) s = .next t) : t.NoAddressingFault := by
  rcases State.unlessLatched_eq_next h with ⟨-, rfl⟩ | ⟨-, h⟩
  · exact hs
  · exact notify_noAddressingFault hs h

theorem exec_noAddressingFault {i : Instr} {s t : State} (hs : s.NoAddressingFault) (h : exec i s = .next t) :
    t.NoAddressingFault := by
  by_cases hwb : ∃ a v, i = .wb a v
  · obtain ⟨a, v, rfl⟩ := hwb
    exact exec_wb_noAddressingFault hs h
  by_cases hnotify : ∃ k v, i = .notify k v
  · obtain ⟨k, v, rfl⟩ := hnotify
    exact exec_notify_noAddressingFault hs h
  · exact (exec_latchEffect (fun a v e => hwb ⟨a, v, e⟩) (fun k v e => hnotify ⟨k, v, e⟩) h).noAddressingFault hs
      (exec_frame h).mode

theorem step_noAddressingFault {s t : State} (hs : s.NoAddressingFault) (h : step s = .next t) : t.NoAddressingFault := by
  rcases step_cases s with ⟨e, -⟩ | ⟨e, -⟩ | ⟨i, rest, e, -⟩ | ⟨op, w, rest, e, -⟩ <;> rw [e] at h
  · cases h
  · cases h
    exact hs
  · exact exec_noAddressingFault (s := { s with requests := rest }) (hs.congr rfl rfl) h
  · cases h
    exact (raiseReserved_latchEffect op w { s with requests := rest }).noAddressingFault (hs.congr rfl rfl) rfl

/-- Settles O60: with no fault latched a Release state has `NoAddressingFault`, which a step keeps. -/
theorem releaseRaisesNoAddressingFault : Obligations.ReleaseRaisesNoAddressingFault := by
  unfold Obligations.ReleaseRaisesNoAddressingFault
  intro s t r hm hf hstep hr
  exact FaultKind.isAddressing_eq_false.mp ((step_noAddressingFault (.of_none hm hf) hstep).code r hr)

end Sys2Proof.Machine
end

section
/-! The family 70_reset_and_hazards.md: the state at session start, and the byte of a paging WB behind the mapper's answer. -/

namespace Sys2Proof.Machine

/-! ## Session start -/

theorem PageMap.getElem?_allAbsent {p : Nat} (hp : p < 64) : PageMap.allAbsent[p]? = some .absent := by
  rw [PageMap.allAbsent, Vector.getElem?_replicate, if_pos hp]

/-- Settles O13: both maps start as `PageMap.allAbsent`; the other fields are those `State.launch` writes. -/
theorem sessionStartState : Obligations.SessionStartState := by
  unfold Obligations.SessionStartState
  intro l
  have habsent (p : Nat) (hp : p < 64) := PageMap.getElem?_allAbsent hp
  exact ⟨fun p hp => ⟨habsent p hp, habsent p hp⟩, rfl, rfl, rfl, rfl, rfl, rfl, rfl⟩

/-! ## A paging WB -/

/-- A paging WB whose place is found is its store, and then the notification on the state the store left (41_access.md R92). -/
theorem exec_wb_found_high {s : State} {a : Addr} {b : BlockId} {n : Nat} (v : Byte) (hf : s.fault = none)
    (hi : s.inTrap = false) (ha : 0xFFFC ≤ a.toNat) (hb : s.writeMap[63]? = some (.bound b)) (hn : s.lenOf b = some n)
    (hlt : a.toNat % 1024 < n) :
    exec (.wb a v) s =
      exec (.notify (BitVec.ofNat 2 (a.toNat - 0xFFFC)) v) (s.blkSet b (a.toNat % 1024) v) := by
  have hpage : a.toNat / 1024 = 63 := by omega
  rw [exec_wb_found v hf hi (hpage ▸ hb) hn hlt, afterStore_high (s := s.blkSet b (a.toNat % 1024) v) hf ha]

/-- MAPPER is not shown the arena, so a store leaves its set (00_scope.md R11). -/
theorem State.mayAnswer_blkSet {s : State} {b : BlockId} {i : Nat} {x : Byte} {k : RegIndex} {v : Byte} {a : Answer} :
    (s.blkSet b i x).MayAnswer k v a ↔ s.MayAnswer k v a :=
  State.mayAnswer_congr rfl rfl rfl rfl k v a

/-- Settles O52: the store comes first, and an answer without a COPY leaves the arena as the store left it, whatever it rebinds and whether or not it faults. -/
theorem pagingWriteStoresBeforeTheAnswer : Obligations.PagingWriteStoresBeforeTheAnswer := by
  unfold Obligations.PagingWriteStoresBeforeTheAnswer
  intro s t a v b n hs hf ha hb hn hlt hcopy hexec b' j
  obtain ⟨harena, -⟩ := State.wf_iff.mp hs
  rw [exec_wb_found_high v hf (State.wf_inTrap hs hf) ha hb hn hlt] at hexec
  obtain ⟨-, -, -, -, -, -, hkept⟩ := notificationFrame (s.blkSet b (a.toNat % 1024) v) t _ v hf hexec
  have hblocks := hkept fun a cs hmay => hcopy a cs (State.mayAnswer_blkSet.mp hmay)
  rw [State.readByte_congr hblocks, State.readByte_blkSet harena hn hlt]

end Sys2Proof.Machine
end
